-- ==== Sys2Proof/Word.lean ====
section
/-! DEFINITION. The two fixed-width types of the C20P1305 core: the 32-bit stream and state word
(00_scope.md R6, `WORD`) and the byte. -/

namespace Sys2Proof

/-- A word of the command and response streams, and of the cipher state (R6, R22, R80): 32 bits. -/
abbrev Word := BitVec 32

/-- A byte of a payload, of the keystream or of a Poly1305 block (R9). -/
abbrev Byte := BitVec 8

end Sys2Proof
end

