-- ==== Sys2Proof/Machine/Bytes.lean ====
section
/-! DEFINITION. Byte order (00_scope.md R8, R9; 20_memory.md R60, R61): little-endian numbers, and the packing
of payload bytes into stream words (30_encoding.md R84, R92). -/

namespace Sys2Proof

/-- `LE_n(b)` (R9): the sum of `b[i] * 2^(8*i)`. -/
def leNat : List Byte → Nat
  | [] => 0
  | b :: bs => b.toNat + 256 * leNat bs

/-- `toLE_n(v)` (R9): the `n` bytes `(v >> (8*i)) mod 256`, `i` from 0. -/
def toLE : Nat → Nat → List Byte
  | 0, _ => []
  | n + 1, v => BitVec.ofNat 8 v :: toLE n (v / 256)

/-- `zeros(n)` (R8). -/
def zeros (n : Nat) : List Byte := List.replicate n 0

/-- `b[i..j)` (R8). -/
def slice (i j : Nat) (b : List Byte) : List Byte := (b.drop i).take (j - i)

/-- `LE32(b, i)` (R9): the word at bytes `i..i+4`. -/
def le32 (b : List Byte) (i : Nat) : Word := BitVec.ofNat 32 (leNat (slice i (i + 4) b))

/-- A word whose bits from `lo` up hold the field `v`; its other bits are 0 (R7, R82, R93). -/
def field {n : Nat} (lo : Nat) (v : BitVec n) : Word := v.setWidth 32 <<< lo

/-- `ceil(n / 4)`: the stream words that `n` payload bytes take (R81, R91). -/
def wordCount (n : Nat) : Nat := (n + 3) / 4

/-- The four byte lanes of a stream word, lane 0 first (R61, R84). -/
def lanes (w : Word) : List Byte := toLE 4 w.toNat

/-- The word whose lowest lanes hold `b`; the lanes above are 0 (R92). -/
def wordOfLanes (b : List Byte) : Word := BitVec.ofNat 32 (leNat b)

/-- All byte lanes of a word sequence, in payload order (R84). -/
def laneBytes (ws : List Word) : List Byte := ws.flatMap lanes

/-- Payload bytes packed into words, four a word, unused lanes of the last word 0 (R92, R96). -/
def packWords : List Byte → List Word
  | [] => []
  | [a] => [wordOfLanes [a]]
  | [a, b] => [wordOfLanes [a, b]]
  | [a, b, c] => [wordOfLanes [a, b, c]]
  | a :: b :: c :: d :: rest => wordOfLanes [a, b, c, d] :: packWords rest

end Sys2Proof
end

