-- ==== Sys2Proof/Config.lean ====
section
/-! DEFINITION. The parameters the spec leaves OPEN (00_scope.md R6, 70_reset_and_hazards.md R314,
92_eei_decisions.md D2, D28, D29). Each is a constant with no body: nothing can be proved about its value. -/

namespace Sys2Proof

/-- `RSP_BUF_WORDS` (R6, R311): how many response words the core holds while the host does not read. -/
opaque Config.rspBufWords : Nat

/-- `NUM_INSTANCES` less one (R6: the parameter is at least 1). -/
opaque Config.furtherInstances : Nat

/-- `NUM_INSTANCES` (R6, R274): the cores of one system, at least 1. -/
def Config.numInstances : Nat := Config.furtherInstances + 1

/-- `CORE_BASE` (R65): where a platform places an instance; no rule reads it. -/
opaque Config.coreBase : Nat

/-- `CYCLES_PER_BYTE` (R314): the hardware's time bound; no model rule reads it. -/
opaque Config.cyclesPerByte : Nat

/-- `T0` (R314): the constant part of the hardware's time bound; no model rule reads it. -/
opaque Config.t0 : Nat

end Sys2Proof
end

