-- ==== Sys2Proof/Syntax.lean ====
section
/-! DEFINITION. The six host commands (30_encoding.md R86), one constructor per row of the opcode table. -/

namespace Sys2Proof

/-- One framed command with a defined opcode (R81, R82). `rsvd` is the field `hw0[31:8]`; `payload` is the
sequence `Payload(0) .. Payload(LEN-1)` (R84), so `LEN` is its length. A frame whose reserved bits are not 0
or whose LEN is not legal is still a frame of its command: the command itself reports those errors
(R204, R207, R210, R213, R216, R218), so both fields stand in every constructor. -/
inductive Instr where
  /-- `INIT`, OPC 0x01 (R201): key, nonce and AAD in the payload. -/
  | init (rsvd : BitVec 24) (payload : List Byte)
  /-- `ENCRYPT`, OPC 0x02 (R205): the data to encrypt. -/
  | encrypt (rsvd : BitVec 24) (payload : List Byte)
  /-- `DECRYPT`, OPC 0x03 (R208): the data to decrypt. -/
  | decrypt (rsvd : BitVec 24) (payload : List Byte)
  /-- `FINISH`, OPC 0x04 (R211): no operand. -/
  | finish (rsvd : BitVec 24) (payload : List Byte)
  /-- `TAGCMP`, OPC 0x05 (R215): two tags. -/
  | tagcmp (rsvd : BitVec 24) (payload : List Byte)
  /-- `ABORT`, OPC 0x06 (R217): no operand. -/
  | abort (rsvd : BitVec 24) (payload : List Byte)
  deriving DecidableEq, Repr

/-- The reserved header field `hw0[31:8]` of a command (R82). -/
def Instr.rsvd : Instr → BitVec 24
  | .init r _ => r
  | .encrypt r _ => r
  | .decrypt r _ => r
  | .finish r _ => r
  | .tagcmp r _ => r
  | .abort r _ => r

/-- The payload bytes of a command (R84). -/
def Instr.payload : Instr → List Byte
  | .init _ p => p
  | .encrypt _ p => p
  | .decrypt _ p => p
  | .finish _ p => p
  | .tagcmp _ p => p
  | .abort _ p => p

end Sys2Proof
end

