-- ==== Sys2Proof/Machine/State.lean ====
section
/-! DEFINITION. The architectural state of one core instance (10_state.md), the two streams at its ports
(30_encoding.md R80), the reasons a step stops, and the state after reset (R39). -/

namespace Sys2Proof.Machine

/-- `st`, the session state register (R20). Its encodings 5, 6 and 7 are never held, so they have no constructor. -/
inductive SessionState where
  | uninit
  | initialized
  | authEnc
  | authDec
  | finished
  deriving DecidableEq, Repr

/-- The six commands, as the checks of R263 and the table of R264 name them. -/
inductive Command where
  | init
  | encrypt
  | decrypt
  | finish
  | tagcmp
  | abort
  deriving DecidableEq, Repr

/-- The error causes (R94, R261). ERR 0 is `OK` and is no error. -/
inductive ErrCode where
  | illegalOpcode
  | reservedBits
  | badLength
  | sequence
  | direction
  deriving DecidableEq, Repr

/-- `ph`, the parse phase (R32). -/
inductive Phase where
  | hdr0
  | hdr1
  | hdr2
  | pay
  deriving DecidableEq, Repr

/-- The command parser (R32, R81). -/
structure Parser where
  /-- `ph` -/
  ph : Phase
  /-- `hw0` -/
  hw0 : Word
  /-- `hw1` -/
  hw1 : Word
  /-- `hw2` -/
  hw2 : Word
  /-- `rem`: payload words still to receive -/
  rem : BitVec 64
  /-- the payload words of the frame in progress, in order of arrival (R81: "append w to payload words") -/
  pw : List Word
  deriving DecidableEq, Repr

/-- StreamCipher (R22, R24, R25). -/
structure StreamCipher where
  /-- `cs[0..15]`: constants, key, counter low word, nonce (word 13 also takes the counter's carry) -/
  cs : Vector Word 16
  /-- `ks[0..63]`: the buffered keystream block -/
  ks : Vector Byte 64
  /-- `ko`: how many bytes of `ks` are used, 0 to 64 -/
  ko : Fin 65
  deriving DecidableEq, Repr

/-- AuthAccumulator (R26 to R29). -/
structure AuthAccumulator where
  /-- `h`, held as its residue in `[0, 2^130 - 5)` -/
  h : Nat
  /-- `r`, the clamped multiplier -/
  r : BitVec 128
  /-- `s`, the additive pad -/
  s : BitVec 128
  /-- `pb[0..15]`, the partial block -/
  pb : Vector Byte 16
  /-- `pn`: how many bytes of `pb` are valid, 0 to 15 -/
  pn : Fin 16
  deriving DecidableEq, Repr

/-- AeadSession (section 3 of the source, R30): the registers of a session. -/
structure Session where
  cipher : StreamCipher
  auth : AuthAccumulator
  /-- `authLength` -/
  authLength : BitVec 64
  /-- `dataLength` -/
  dataLength : BitVec 64
  deriving DecidableEq, Repr

/-- The ports (R80), each stream as the words that move on it (DESIGN CHOICE, log entry 2). What the host drives stands
here as plain data: `cmdIn`, `rspReady` and `rst` change only by the host's own acts (Machine/HostPort.lean) and,
`cmdIn`, by the core accepting words. -/
structure Ports where
  /-- `rst` (R300) -/
  rst : Bool
  /-- command words the host offers and the core has not accepted, the next one first (`cmd_data`, `cmd_valid`) -/
  cmdIn : List Word
  /-- the last payload word of the data command whose response is on its way, while the core does not accept that
  word: R311's deadlock inside a payload (DESIGN CHOICE, log entry 4) -/
  cmdLast : Option Word
  /-- response words of the commands executed that have not moved to the host, the oldest first: the front one is
  on the port (`rsp_data`, `rsp_valid`); the core can hold `RSP_BUF_WORDS` of them, the rest it has yet to emit (R311) -/
  rspOut : List Word
  /-- every response word that has moved to the host, the oldest first -/
  rspMoved : List Word
  /-- `rsp_ready`: the host reads response words as the core emits them (R80, R311) -/
  rspReady : Bool
  deriving DecidableEq, Repr

/-- One core instance. -/
structure State where
  /-- `st` (R20) -/
  st : SessionState
  session : Session
  parser : Parser
  ports : Ports
  deriving DecidableEq, Repr

/-- Why a step stops. -/
inductive Fault where
  /-- Raised by `step` when no word is offered and none is moving to the host: the parser waits and has no enabled
  step ("stuck", R304, I15). Safe: no state is lost, and offering a word enables the step again. -/
  | awaitingWord
  /-- Raised by `step` when the host does not read and more response words are on their way than the core can hold:
  the deadlock of R311 ("both agents having no enabled step", I16). Safe: no word is lost or accepted, and reading
  enables the step again. -/
  | responseStall
  /-- `fault Internal(PolyTail)` (R163, R164, R266): POLY_FINAL with `pn != 0`. Raised by FINISH only, in states
  that no run from reset reaches. Safe: the rules ask for the fault. -/
  | polyTail
  deriving DecidableEq, Repr

/-- Why a command has no meaning. -/
inductive Refusal where
  /-- A command without a meaning; raised by `exec` only. No arm of `exec` is in this case. Safe. -/
  | notModelled (mnemonic : String)
  deriving DecidableEq, Repr

/-- What executing a command, or taking a step, answers. -/
abbrev Answer := Host.Outcome State Fault Refusal

/-- The stream cipher's registers after reset (R39). -/
def StreamCipher.reset : StreamCipher :=
  { cs := Vector.replicate 16 0, ks := Vector.replicate 64 0, ko := 64 }

/-- The authenticator's registers after reset (R39). -/
def AuthAccumulator.reset : AuthAccumulator :=
  { h := 0, r := 0, s := 0, pb := Vector.replicate 16 0, pn := 0 }

/-- The session registers after reset (R39), and after ZEROIZE (R221). -/
def Session.reset : Session :=
  { cipher := StreamCipher.reset, auth := AuthAccumulator.reset, authLength := 0, dataLength := 0 }

/-- The parser after reset (R39). -/
def Parser.reset : Parser :=
  { ph := .hdr0, hw0 := 0, hw1 := 0, hw2 := 0, rem := 0, pw := [] }

/-- The ports right after reset: `rst` back at 0 (R300) and no word in flight. That the host is ready to read
(`rspReady`) is the model's choice (log entry 3): the port is an input, and no rule gives it a value. -/
def Ports.reset : Ports :=
  { rst := false, cmdIn := [], cmdLast := none, rspOut := [], rspMoved := [], rspReady := true }

/-- The core right after reset (R39, R300). -/
def State.reset : State :=
  { st := .uninit, session := Session.reset, parser := Parser.reset, ports := Ports.reset }

end Sys2Proof.Machine
end

