-- ==== Sys2Proof/Machine/Authenticator.lean ====
section
/-! DEFINITION. The Poly1305 unit and the tag comparator: POLY_INIT, POLY_UPDATE, POLY_BLOCK, POLY_FINAL and
CT_EQUAL (41_authenticator.md). It raises no exception (R169); POLY_FINAL's internal fault is R164's. -/

namespace Sys2Proof.Machine

/-- `p = 2^130 - 5` (R8, R165). -/
def polyP : Nat := 2 ^ 130 - 5

/-- The clamp mask of POLY_INIT (R160). -/
def clampMask : BitVec 128 := 0x0ffffffc0ffffffc0ffffffc0fffffff

/-- POLY_INIT(otk) (R160). -/
def polyInit (otk : List Byte) (a : AuthAccumulator) : AuthAccumulator :=
  { a with
    r := BitVec.ofNat 128 (leNat (slice 0 16 otk)) &&& clampMask
    s := BitVec.ofNat 128 (leNat (slice 16 32 otk))
    h := 0
    pn := 0 }

/-- The value `n` of a genuine block, `LE_16(m) + 2^128` (R162). The constant stands first so that the kernel never
counts it in unary. -/
def blockValue (m : List Byte) : Nat := 2 ^ 128 + leNat m

/-- The accumulator after one block: `((h + n) * r) mod p` (R162). -/
def absorbValue (r : BitVec 128) (h : Nat) (m : List Byte) : Nat := ((h + blockValue m) * r.toNat) % polyP

/-- POLY_BLOCK(m) (R162). -/
def polyBlock (m : List Byte) (a : AuthAccumulator) : AuthAccumulator :=
  { a with h := absorbValue a.r a.h m }

/-- One byte of POLY_UPDATE (R161): the block is absorbed as soon as its 16th byte arrives. -/
def polyByte (a : AuthAccumulator) (b : Byte) : AuthAccumulator :=
  let pb := a.pb.set a.pn b
  if h : a.pn.val + 1 < 16 then { a with pb := pb, pn := ⟨a.pn.val + 1, h⟩ }
  else polyBlock pb.toList { a with pb := pb, pn := 0 }

/-- POLY_UPDATE(data) (R161), in increasing order. -/
def polyUpdate (data : List Byte) (a : AuthAccumulator) : AuthAccumulator := data.foldl polyByte a

/-- The tag `toLE_16((h mod p + s) mod 2^128)` (R163). -/
def polyTag (a : AuthAccumulator) : List Byte := toLE 16 ((a.h % polyP + a.s.toNat) % 2 ^ 128)

/-- POLY_FINAL (R163); `none` where R164 asks for `fault Internal(PolyTail)`. -/
def polyFinal (a : AuthAccumulator) : Option (List Byte) := if a.pn = 0 then some (polyTag a) else none

/-- CT_EQUAL(t1, t2) (R168): the or of all byte differences, compared with 0. -/
def ctEqual (t1 t2 : List Byte) : Bool :=
  decide ((List.zipWith (· ^^^ ·) t1 t2).foldl (· ||| ·) 0 = (0 : Byte))

/-- `zeros((16 - n mod 16) mod 16)`: the pad that rounds `n` bytes up to whole blocks (R203, R211, R222);
empty when `n mod 16 = 0`. -/
def pad16 (n : Nat) : List Byte := zeros ((16 - n % 16) % 16)

end Sys2Proof.Machine
end

