-- ==== Sys2Proof/Machine/Flags.lean ====
section
/-! DEFINITION. The core has no flag register (R34): the status word of a command's response reports its
outcome (30_encoding.md R93, R94). -/

namespace Sys2Proof.Machine

/-- The encoding of `st` (R20). -/
def SessionState.code : SessionState → BitVec 3
  | .uninit => 0
  | .initialized => 1
  | .authEnc => 2
  | .authDec => 3
  | .finished => 4

/-- The error codes (R94). -/
def ErrCode.code : ErrCode → BitVec 4
  | .illegalOpcode => 1
  | .reservedBits => 2
  | .badLength => 3
  | .sequence => 4
  | .direction => 5

/-- Field `ERR`: 0 for a command that was performed (R93, R94). -/
def errField : Option ErrCode → BitVec 4
  | none => 0
  | some e => e.code

/-- The status word `rw0` (R93): `OPC` in bits 7:0, `ERR` in 11:8, `EQ` in 12, `ST` in 18:16; the rest is 0. -/
def statusWord (opc : Byte) (err : Option ErrCode) (eq : Bool) (st : SessionState) : Word :=
  field 0 opc ||| field 8 (errField err) ||| field 12 (BitVec.ofBool eq) ||| field 16 st.code

end Sys2Proof.Machine
end

