-- ==== Sys2Proof/Machine/Operands.lean ====
section
/-! DEFINITION. The operand layouts of the commands' payloads (30_encoding.md R87). ENCRYPT and DECRYPT take
the whole payload; FINISH and ABORT take no operand. No command has a register field, an immediate field or an
addressing mode. -/

namespace Sys2Proof.Machine

/-- INIT's key, `Payload[0..32)`. -/
def keyOf (payload : List Byte) : List Byte := slice 0 32 payload

/-- INIT's nonce, `Payload[32..44)`. -/
def nonceOf (payload : List Byte) : List Byte := slice 32 44 payload

/-- INIT's AAD, `Payload[44..LEN)`. -/
def aadOf (payload : List Byte) : List Byte := payload.drop 44

/-- TAGCMP's first tag, `Payload[0..16)`. -/
def tag1Of (payload : List Byte) : List Byte := slice 0 16 payload

/-- TAGCMP's second tag, `Payload[16..32)`. -/
def tag2Of (payload : List Byte) : List Byte := slice 16 32 payload

end Sys2Proof.Machine
end

