-- ==== Sys2Proof/Machine/StreamCipher.lean ====
section
/-! DEFINITION. The keystream generator: SC_INIT, QUARTERROUND, DOUBLEROUND, BLOCK, CTR_INC, REGEN,
APPLY_BYTE and APPLY (40_stream_cipher.md). It raises no exception (R134). -/

namespace Sys2Proof.Machine

/-- `rotl32(x, n)` (R8, R122), used with n in 16, 12, 8 and 7. -/
def rotl32 (x : Word) (n : Nat) : Word := (x <<< n) ||| (x >>> (32 - n))

/-- The 16 ASCII bytes of "expand 32-byte k" (R120). -/
def sigma : List Byte :=
  [0x65, 0x78, 0x70, 0x61, 0x6e, 0x64, 0x20, 0x33, 0x32, 0x2d, 0x62, 0x79, 0x74, 0x65, 0x20, 0x6b]

/-- The constant word `C[i]`, packed little-endian (R120). -/
def constWord (i : Nat) : Word := le32 sigma (4 * i)

/-- SC_INIT (R121). `ks` is not written. -/
def scInit (key nonce : List Byte) (c : StreamCipher) : StreamCipher :=
  { c with
    cs := #v[constWord 0, constWord 1, constWord 2, constWord 3,
             le32 key 0, le32 key 4, le32 key 8, le32 key 12,
             le32 key 16, le32 key 20, le32 key 24, le32 key 28,
             0, le32 nonce 0, le32 nonce 4, le32 nonce 8]
    ko := 64 }

/-- QUARTERROUND on four words, in the source's order (R124). -/
def quarterWords (a b c d : Word) : Word × Word × Word × Word :=
  let a := a + b
  let d := rotl32 (d ^^^ a) 16
  let c := c + d
  let b := rotl32 (b ^^^ c) 12
  let a := a + b
  let d := rotl32 (d ^^^ a) 8
  let c := c + d
  let b := rotl32 (b ^^^ c) 7
  (a, b, c, d)

/-- QUARTERROUND(a, b, c, d) on the working array (R124). -/
def quarterRound (a b c d : Fin 16) (x : Vector Word 16) : Vector Word 16 :=
  let q := quarterWords x[a] x[b] x[c] x[d]
  (((x.set a q.1).set b q.2.1).set c q.2.2.1).set d q.2.2.2

/-- The four column quarter-rounds of a double round (R125). -/
def columnRound (x : Vector Word 16) : Vector Word 16 :=
  quarterRound 3 7 11 15 (quarterRound 2 6 10 14 (quarterRound 1 5 9 13 (quarterRound 0 4 8 12 x)))

/-- The four diagonal quarter-rounds of a double round (R125). -/
def diagonalRound (x : Vector Word 16) : Vector Word 16 :=
  quarterRound 3 4 9 14 (quarterRound 2 7 8 13 (quarterRound 1 6 11 12 (quarterRound 0 5 10 15 x)))

/-- DOUBLEROUND: the columns complete before the diagonals begin (R125, R126). -/
def doubleRound (x : Vector Word 16) : Vector Word 16 := diagonalRound (columnRound x)

/-- `n` double rounds. -/
def doubleRounds : Nat → Vector Word 16 → Vector Word 16
  | 0, x => x
  | n + 1, x => doubleRounds n (doubleRound x)

/-- BLOCK's output words: ten double rounds, then the feed-forward addition of the state (R127). -/
def blockWord (cs : Vector Word 16) (i : Fin 16) : Word := (doubleRounds 10 cs)[i] + cs[i]

/-- BLOCK(cs), 64 bytes (R127): byte `i` is byte `i mod 4` of output word `i / 4`, little-endian. -/
@[irreducible] def block (cs : Vector Word 16) : Vector Byte 64 :=
  Vector.ofFn fun i : Fin 64 => (blockWord cs ⟨i.val / 4, by omega⟩).extractLsb' (8 * (i.val % 4)) 8

/-- CTR_INC (R128): word 13 takes the carry out of word 12; its own carry is discarded (R133). -/
def ctrInc (cs : Vector Word 16) : Vector Word 16 :=
  let cs := cs.set 12 (cs[12] + 1)
  if cs[12] = 0 then cs.set 13 (cs[13] + 1) else cs

/-- REGEN (R129): the block is made with the counter before the increment. -/
def regen (c : StreamCipher) : StreamCipher :=
  { cs := ctrInc c.cs, ks := block c.cs, ko := 0 }

/-- Use keystream byte `i` of the buffer and advance the cursor past it (R130). -/
def useByte (i : Fin 64) (b : Byte) (c : StreamCipher) : Byte × StreamCipher :=
  (b ^^^ c.ks[i], { c with ko := i.succ })

/-- APPLY_BYTE(b) (R130). Regeneration is lazy: a block is made only when a byte needs it. -/
def applyByte (b : Byte) (c : StreamCipher) : Byte × StreamCipher :=
  if h : c.ko.val < 64 then useByte ⟨c.ko.val, h⟩ b c else useByte 0 b (regen c)

/-- APPLY(buf) (R131), in increasing order. -/
def apply : List Byte → StreamCipher → List Byte × StreamCipher
  | [], c => ([], c)
  | b :: bs, c => ((applyByte b c).1 :: (apply bs (applyByte b c).2).1, (apply bs (applyByte b c).2).2)

end Sys2Proof.Machine
end

