-- ==== Sys2Proof/Machine/Ops.lean ====
section
/-! DEFINITION. The operations every command shares: the checks of 60_exceptions.md R263, the response frame
(30_encoding.md R91), ending in an error (R262), and ZEROIZE (42_aead_commands.md R221). The core has no trap, no
saved pc or status, and no return from one (R260, R268, R269): ending in an error is all there is, and the next
frame is parsed like any other. `keygen` and `finishAuth` are irreducible only to keep the elaborator from running
the cipher while it compares terms: the kernel and `simp [keygen]` unfold them as usual. -/

namespace Sys2Proof.Machine

/-! ## The checks -/

/-- The command of an instruction. -/
def commandOf : Instr → Command
  | .init _ _ => .init
  | .encrypt _ _ => .encrypt
  | .decrypt _ _ => .decrypt
  | .finish _ _ => .finish
  | .tagcmp _ _ => .tagcmp
  | .abort _ _ => .abort

/-- The legal values of LEN (R86, R88). -/
def legalLen : Command → Nat → Bool
  | .init, len => decide (44 ≤ len)
  | .encrypt, _ => true
  | .decrypt, _ => true
  | .finish, len => decide (len = 0)
  | .tagcmp, len => decide (len = 32)
  | .abort, len => decide (len = 0)

/-- Check 4 of R263: the session states in which a command does not end in `SEQUENCE` (R264). -/
def permitted : Command → SessionState → Bool
  | .init, st => decide (st = .uninit ∨ st = .finished)
  | .encrypt, st => decide (st ≠ .uninit ∧ st ≠ .finished)
  | .decrypt, st => decide (st ≠ .uninit ∧ st ≠ .finished)
  | .finish, st => decide (st ≠ .uninit ∧ st ≠ .finished)
  | .tagcmp, _ => true
  | .abort, _ => true

/-- Check 5 of R263: the session's direction is the other one. -/
def wrongDirection : Command → SessionState → Bool
  | .init, _ => false
  | .encrypt, st => decide (st = .authDec)
  | .decrypt, st => decide (st = .authEnc)
  | .finish, _ => false
  | .tagcmp, _ => false
  | .abort, _ => false

/-- Checks 2 to 5 of R263 in their fixed order, for a frame whose opcode is defined (check 1 is the decoder's).
They read the header and `st` only. -/
def check (c : Command) (rsvd : BitVec 24) (len : Nat) (st : SessionState) : Option ErrCode :=
  if rsvd ≠ 0 then some .reservedBits
  else if legalLen c len = false then some .badLength
  else if permitted c st = false then some .sequence
  else if wrongDirection c st = true then some .direction
  else none

/-! ## Responses -/

/-- The response frame's words: `rw0`, `rw1`, `rw2`, then the payload, packed with unused lanes 0 (R91, R92). -/
def responseWords (status : Word) (payload : List Byte) : List Word :=
  status :: BitVec.ofNat 32 payload.length :: BitVec.ofNat 32 (payload.length / 2 ^ 32) :: packWords payload

/-- The core cannot emit its next response word (R311, I16): the host does not read, and more words are on their way
than the core can hold. -/
def Ports.stalled (p : Ports) : Bool :=
  if p.rspReady = true then false else decide (Config.rspBufWords < p.rspOut.length)

/-- The core accepts the command word it held back, unless it is stalled (R311). -/
def Ports.acceptLast (p : Ports) : Ports := { p with cmdLast := if p.stalled = true then p.cmdLast else none }

/-- A reading host takes every response word that is on its way (R80, R311); one that does not read takes none. -/
def Ports.settle (p : Ports) : Ports :=
  if p.rspReady = true then { p with cmdLast := none, rspOut := [], rspMoved := p.rspMoved ++ p.rspOut } else p

/-- The command words the host offers that the core has not accepted. -/
def Ports.offered (p : Ports) : List Word := p.cmdLast.toList ++ p.cmdIn

/-- Emit a response frame's words, after all emitted before (R69, R311). A response without a payload is emitted once
the whole frame is accepted. A data command emits its payload as its payload words come in, so its last word waits
while the core is stalled (log entry 4). -/
def deliver (ws : List Word) (p : Ports) : Ports :=
  Ports.acceptLast { p with rspOut := p.rspOut ++ ws, cmdLast := if ws.length ≤ 3 then none else p.cmdLast }

/-- End a command: one response frame whose `ST` is the state's `st` (R91, R93, R200). -/
def respond (opc : Byte) (err : Option ErrCode) (eq : Bool) (payload : List Byte) (s : State) : Answer :=
  .next { s with ports := deliver (responseWords (statusWord opc err eq s.st) payload) s.ports }

/-- `raise Error(code)` (R10, R262): the status word with the code and the unchanged `st`, RLEN 0, no effect on
any register. -/
def raiseError (opc : Byte) (e : ErrCode) (s : State) : Answer := respond opc (some e) false [] s

/-- A frame with a reserved opcode, its reserved bits whatever they are (R89, R263 check 1). -/
def illegalOpcode (opc : Byte) (s : State) : Answer := raiseError opc .illegalOpcode s

/-! ## The session registers -/

/-- ZEROIZE (R221): every session register at its reset value; `st` and the parser are not touched. -/
def zeroize (s : State) : State := { s with session := Session.reset }

/-- KEYGEN (R202): block 0 gives the one-time key; its other 32 bytes are discarded. -/
@[irreducible] def keygen (n : Session) : Session :=
  { n with
    cipher := (apply (zeros 64) n.cipher).2
    auth := polyInit (slice 0 32 (apply (zeros 64) n.cipher).1) n.auth }

/-- ABSORB_AAD(aad) (R203). -/
def absorbAad (aad : List Byte) (n : Session) : Session :=
  { n with
    auth := polyUpdate (pad16 aad.length) (polyUpdate aad n.auth)
    authLength := BitVec.ofNat 64 aad.length
    dataLength := 0 }

/-- The session registers after INIT (R201): SC_INIT, KEYGEN, ABSORB_AAD. -/
def initSession (key nonce aad : List Byte) (n : Session) : Session :=
  absorbAad aad (keygen { n with cipher := scInit key nonce n.cipher })

/-- The length counter after `len` more payload bytes, modulo 2^64 (R214). -/
def addDataLength (len : Nat) (n : Session) : BitVec 64 := n.dataLength + BitVec.ofNat 64 len

/-- The session registers after ENCRYPT (R205): XOR first, then authenticate the ciphertext (R206). -/
def encryptSession (data : List Byte) (n : Session) : Session :=
  { n with
    cipher := (apply data n.cipher).2
    auth := polyUpdate (apply data n.cipher).1 n.auth
    dataLength := addDataLength data.length n }

/-- The session registers after DECRYPT (R208): authenticate the payload as it arrived, then XOR (R209). -/
def decryptSession (data : List Byte) (n : Session) : Session :=
  { n with
    auth := polyUpdate data n.auth
    cipher := (apply data n.cipher).2
    dataLength := addDataLength data.length n }

/-- The length block `toLE_8(authLength) ++ toLE_8(dataLength)` (R211). -/
def lengthBlock (n : Session) : List Byte := toLE 8 n.authLength.toNat ++ toLE 8 n.dataLength.toNat

/-- FINISH's last absorptions (R211): the data's pad, then the length block. -/
@[irreducible] def finishAuth (n : Session) : AuthAccumulator :=
  polyUpdate (lengthBlock n) (polyUpdate (pad16 n.dataLength.toNat) n.auth)

end Sys2Proof.Machine
end

