-- ==== Sys2Proof/Machine/Compare.lean ====
section
/-! DEFINITION. The tag comparison TAGCMP (42_aead_commands.md R215, R216). -/

namespace Sys2Proof.Machine

/-- TAGCMP (R215, R216): performed in every session state, and no register changes. -/
def execTagcmp (rsvd : BitVec 24) (payload : List Byte) (s : State) : Answer :=
  match check .tagcmp rsvd payload.length s.st with
  | some e => raiseError 0x05 e s
  | none => respond 0x05 none (ctEqual (tag1Of payload) (tag2Of payload)) [] s

end Sys2Proof.Machine
end

