-- ==== Sys2Proof/Machine/Data.lean ====
section
/-! DEFINITION. The data commands ENCRYPT and DECRYPT (42_aead_commands.md R205 to R210, R219). -/

namespace Sys2Proof.Machine

/-- ENCRYPT (R205 to R207): emits the ciphertext and fixes the direction, even with LEN 0 (R219). -/
def execEncrypt (rsvd : BitVec 24) (payload : List Byte) (s : State) : Answer :=
  match check .encrypt rsvd payload.length s.st with
  | some e => raiseError 0x02 e s
  | none =>
    respond 0x02 none false (apply payload s.session.cipher).1
      { s with st := .authEnc, session := encryptSession payload s.session }

/-- DECRYPT (R208 to R210): emits the plaintext, whatever the tag will be (R220). -/
def execDecrypt (rsvd : BitVec 24) (payload : List Byte) (s : State) : Answer :=
  match check .decrypt rsvd payload.length s.st with
  | some e => raiseError 0x03 e s
  | none =>
    respond 0x03 none false (apply payload s.session.cipher).1
      { s with st := .authDec, session := decryptSession payload s.session }

end Sys2Proof.Machine
end

