-- ==== Sys2Proof/Machine/Session.lean ====
section
/-! DEFINITION. The commands that open and close a session: INIT, FINISH and ABORT (42_aead_commands.md R201 to
R204, R211 to R213, R217, R218). -/

namespace Sys2Proof.Machine

/-- INIT (R201, R204). -/
def execInit (rsvd : BitVec 24) (payload : List Byte) (s : State) : Answer :=
  match check .init rsvd payload.length s.st with
  | some e => raiseError 0x01 e s
  | none =>
    respond 0x01 none false []
      { s with st := .initialized,
               session := initSession (keyOf payload) (nonceOf payload) (aadOf payload) s.session }

/-- FINISH (R211 to R213). The tag is taken before ZEROIZE; POLY_FINAL's internal fault is R164's. -/
def execFinish (rsvd : BitVec 24) (payload : List Byte) (s : State) : Answer :=
  match check .finish rsvd payload.length s.st with
  | some e => raiseError 0x04 e s
  | none =>
    match polyFinal (finishAuth s.session) with
    | none => .fault .polyTail
    | some tag => respond 0x04 none false tag { zeroize s with st := .finished }

/-- ABORT (R217, R218). -/
def execAbort (rsvd : BitVec 24) (payload : List Byte) (s : State) : Answer :=
  match check .abort rsvd payload.length s.st with
  | some e => raiseError 0x06 e s
  | none => respond 0x06 none false [] { zeroize s with st := .uninit }

end Sys2Proof.Machine
end

