-- ==== Sys2Proof/Machine/Dispatch.lean ====
section
/-! DEFINITION. One arm per command of the opcode map (30_encoding.md R86). -/

namespace Sys2Proof.Machine

def exec (i : Instr) (s : State) : Host.Outcome State Fault Refusal :=
  match i with
  | .init rsvd payload => Sys2Proof.Machine.execInit rsvd payload s
  | .encrypt rsvd payload => Sys2Proof.Machine.execEncrypt rsvd payload s
  | .decrypt rsvd payload => Sys2Proof.Machine.execDecrypt rsvd payload s
  | .finish rsvd payload => Sys2Proof.Machine.execFinish rsvd payload s
  | .tagcmp rsvd payload => Sys2Proof.Machine.execTagcmp rsvd payload s
  | .abort rsvd payload => Sys2Proof.Machine.execAbort rsvd payload s

end Sys2Proof.Machine
end

