-- ==== Sys2Proof/WellFormed.lean ====
section
/-! DEFINITION. Which commands a frame can carry (30_encoding.md R83). -/

namespace Sys2Proof

/-- The payload's length fits the 64-bit LEN field: "Every value 0 to 2^64 - 1 can be framed" (R83). -/
def Instr.lenFits (i : Instr) : Bool := decide (i.payload.length < 2 ^ 64)

/-- A command some frame carries. Reserved bits and illegal lengths are framed too (R81: "The parser frames
every command the same way, whatever its opcode, validity or state"), so the LEN field's width is the only check. -/
def Instr.wellFormed (i : Instr) : Bool := i.lenFits

end Sys2Proof
end

