-- ==== Sys2Proof/Decode.lean ====
section
/-! DEFINITION. The command decoder and encoder (30_encoding.md R81 to R90). -/

namespace Sys2Proof

/-- What the decoder reads from the front of a command word sequence. -/
inductive Decoded where
  /-- A frame of a defined opcode, and the words after it. -/
  | instr (i : Instr) (rest : List Word)
  /-- A whole frame whose opcode is reserved (R89), and the words after it. -/
  | reservedOpcode (opc : Byte) (rest : List Word)
  /-- Not yet a whole frame (R304). -/
  | incompleteFrame
  deriving DecidableEq, Repr

/-- Field `OPC` of `hw0`: bits 7 to 0 (R82). -/
def opcField (hw0 : Word) : Byte := hw0.extractLsb' 0 8

/-- Field `RSVD` of `hw0`: bits 31 to 8 (R82). -/
def rsvdField (hw0 : Word) : BitVec 24 := hw0.extractLsb' 8 24

/-- `LEN = hw1 + 2^32 * hw2` (R83). -/
def lenField (hw1 hw2 : Word) : Nat := hw1.toNat + 2 ^ 32 * hw2.toNat

/-- `Payload(0) .. Payload(LEN-1)` (R84): the lanes beyond LEN carry no payload byte and are dropped unread. -/
def payloadOf (len : Nat) (pw : List Word) : List Byte := (laneBytes pw).take len

/-- The opcode map (R86). `none` for the reserved opcodes 0x00 and 0x07 to 0xFF (R89). -/
def instrOf (opc : Byte) (rsvd : BitVec 24) (payload : List Byte) : Option Instr :=
  match opc.toNat with
  | 1 => some (.init rsvd payload)
  | 2 => some (.encrypt rsvd payload)
  | 3 => some (.decrypt rsvd payload)
  | 4 => some (.finish rsvd payload)
  | 5 => some (.tagcmp rsvd payload)
  | 6 => some (.abort rsvd payload)
  | _ => none

/-- One whole frame: the three header words and the payload words (R81). -/
structure Frame where
  hw0 : Word
  hw1 : Word
  hw2 : Word
  pw : List Word
  deriving DecidableEq, Repr

/-- A frame's LEN (R83). -/
def Frame.len (f : Frame) : Nat := lenField f.hw1 f.hw2

/-- A frame's payload bytes (R84). -/
def Frame.payload (f : Frame) : List Byte := payloadOf f.len f.pw

/-- The frame at the front of a word sequence, and the words after it; `none` where the sequence ends inside it.
Its length, `3 + ceil(LEN / 4)` words, comes from `hw1` and `hw2` alone, for any opcode (R85). -/
def splitFrame : List Word → Option (Frame × List Word)
  | hw0 :: hw1 :: hw2 :: ws =>
    if ws.length < wordCount (lenField hw1 hw2) then none
    else some (⟨hw0, hw1, hw2, ws.take (wordCount (lenField hw1 hw2))⟩, ws.drop (wordCount (lenField hw1 hw2)))
  | _ => none

/-- The command of one whole frame (R82, R84, R86). -/
def decodeFrame (f : Frame) : Option Instr := instrOf (opcField f.hw0) (rsvdField f.hw0) f.payload

/-- Decode the frame at the front of a word sequence. -/
def decode (ws : List Word) : Decoded :=
  match splitFrame ws with
  | none => .incompleteFrame
  | some (f, rest) =>
    match decodeFrame f with
    | some i => .instr i rest
    | none => .reservedOpcode (opcField f.hw0) rest

/-- The opcode value of each command (R86). -/
def Instr.opc : Instr → Byte
  | .init _ _ => 0x01
  | .encrypt _ _ => 0x02
  | .decrypt _ _ => 0x03
  | .finish _ _ => 0x04
  | .tagcmp _ _ => 0x05
  | .abort _ _ => 0x06

/-- Header word `hw0` from its two fields (R82). -/
def hw0Of (opc : Byte) (rsvd : BitVec 24) : Word := field 0 opc ||| field 8 rsvd

/-- A frame's words from its fields (R81 to R84); the unused lanes of the last word are 0 (R96). -/
def frameWords (opc : Byte) (rsvd : BitVec 24) (payload : List Byte) : List Word :=
  hw0Of opc rsvd :: BitVec.ofNat 32 payload.length :: BitVec.ofNat 32 (payload.length / 2 ^ 32) :: packWords payload

/-- The words of a well-formed command, from the spec's field tables (R82, R83, R84, R86). -/
def encode (i : Instr) : List Word := frameWords i.opc i.rsvd i.payload

/-- Word `j` of an instruction whose bits are numbered as spec/opcode_table.json numbers them: bit 0 is the
least significant bit of `hw0`, and word `j` holds the bits from `32*j` up. -/
def tableWord (w j : Nat) : Word := BitVec.ofNat 32 (w / 2 ^ (32 * j))

/-- The whole frame of such an instruction; every bit from `nbits` up is 0. -/
def tableFrame (nbits w : Nat) : List Word :=
  let v := w % 2 ^ nbits
  tableWord v 0 :: tableWord v 1 :: tableWord v 2 ::
    (List.range (wordCount (lenField (tableWord v 1) (tableWord v 2)))).map fun j => tableWord v (3 + j)

/-- What the decoder gives for an instruction of the opcode table. -/
def decodeTableWord (nbits w : Nat) : Option Instr :=
  match decode (tableFrame nbits w) with
  | .instr i _ => some i
  | .reservedOpcode _ _ => none
  | .incompleteFrame => none

end Sys2Proof
end

