-- ==== Sys2Proof/Machine/Fetch.lean ====
section
/-! DEFINITION. The command parser (30_encoding.md R81): taking words from the command stream until a whole
frame is there. -/

namespace Sys2Proof.Machine

/-- What the parser has when it has taken what the command stream offers. -/
inductive Fetched where
  /-- `rst` is 1: no word moves and the registers hold their reset values (R300) -/
  | heldInReset (s : State)
  /-- the core cannot emit its next response word (R311) -/
  | stalled
  /-- no word is offered, and none is moving to the host (R304) -/
  | noWord
  /-- the words offered end inside a frame: the parser holds its start and waits (R304) -/
  | waiting (s : State)
  /-- a whole frame with a defined opcode -/
  | command (i : Instr) (s : State)
  /-- a whole frame with a reserved opcode (R89) -/
  | reserved (opc : Byte) (s : State)
  deriving DecidableEq, Repr

/-- The parser back at the start of a frame, with no payload words; `hw0` to `hw2` keep their values (R81). -/
def Parser.atHeader (p : Parser) : Parser := { p with ph := .hdr0, rem := 0, pw := [] }

/-- Accepting one command word (R81). The second part is the frame, when this word completes one. -/
def acceptWord (w : Word) (p : Parser) : Parser × Option Frame :=
  match p.ph with
  | .hdr0 => ({ p with hw0 := w, ph := .hdr1 }, none)
  | .hdr1 => ({ p with hw1 := w, ph := .hdr2 }, none)
  | .hdr2 =>
    let n := BitVec.ofNat 64 (wordCount (lenField p.hw1 w))
    if n = 0 then (Parser.atHeader { p with hw2 := w }, some ⟨p.hw0, p.hw1, w, []⟩)
    else ({ p with hw2 := w, rem := n, pw := [], ph := .pay }, none)
  | .pay =>
    if p.rem - 1 = 0 then (p.atHeader, some ⟨p.hw0, p.hw1, p.hw2, p.pw ++ [w]⟩)
    else ({ p with pw := p.pw ++ [w], rem := p.rem - 1 }, none)

/-- Accept words until a frame is complete or none is left: the parser after, the frame if there is one, and the
words not accepted. -/
def acceptFrame : List Word → Parser → Parser × Option Frame × List Word
  | [], p => (p, none, [])
  | w :: ws, p =>
    match acceptWord w p with
    | (p', some f) => (p', some f, ws)
    | (p', none) => acceptFrame ws p'

/-- Hardware reset (R300, R301): every register at its reset value, the partly received frame and the response
words that have not moved discarded. What the host drives, and the words that moved to it, stay. -/
def hardReset (s : State) : State :=
  { State.reset with
    ports := { Ports.reset with rst := s.ports.rst, cmdIn := s.ports.offered, rspMoved := s.ports.rspMoved,
                                rspReady := s.ports.rspReady } }

/-- The state with the parser and the command stream as `acceptFrame` leaves them, the response words that move
meanwhile moved, and `last` the last payload word of the frame, if a frame is complete and has one. -/
def afterAccept (p : Parser) (last : Option Word) (rest : List Word) (s : State) : State :=
  { s with parser := p, ports := { s.ports.settle with cmdIn := rest, cmdLast := last } }

/-- What `acceptFrame` leaves, and the command of the frame if there is one. -/
def fetchedFrom (r : Parser × Option Frame × List Word) (s : State) : Fetched :=
  match r.2.1 with
  | none => .waiting (afterAccept r.1 none r.2.2 s)
  | some f =>
    match decodeFrame f with
    | some i => .command i (afterAccept r.1 f.pw.getLast? r.2.2 s)
    | none => .reserved (opcField f.hw0) (afterAccept r.1 f.pw.getLast? r.2.2 s)

/-- Take the next frame from the command stream (R81). A stalled core accepts no word (R311). With no word offered
and words moving to the host, they move and the parser waits. -/
def fetch (s : State) : Fetched :=
  if s.ports.rst = true then .heldInReset (hardReset s)
  else if s.ports.stalled = true then .stalled
  else if s.ports.cmdIn = [] ∧ (s.ports.rspReady = false ∨ s.ports.rspOut = []) then .noWord
  else fetchedFrom (acceptFrame s.ports.cmdIn s.parser) s

/-- The state whose next fetch finds the words `ws` as a new frame: the parser at the start of a frame, `rst`
at 0, the words first in the command stream, and the host reading where the core would be stalled. -/
def placeFrame (ws : List Word) (s : State) : State :=
  { s with
    parser := s.parser.atHeader
    ports := { s.ports with rst := false, cmdIn := ws ++ s.ports.cmdIn,
                            rspReady := s.ports.rspReady || s.ports.stalled } }

end Sys2Proof.Machine
end

