-- ==== Sys2Proof/Machine/Step.lean ====
section
/-! DEFINITION. One step: one complete command (10_state.md R31, 30_encoding.md R81). -/

namespace Sys2Proof.Machine

/-- One step of the core. It takes the next frame and executes it; held in reset, it holds the reset values
(R300); with part of a frame it takes what is there and waits; with no word to take it is stuck (R304), and so it
is while it cannot emit its next response word (R311). -/
def step (s : State) : Host.Outcome State Fault Refusal :=
  match fetch s with
  | .heldInReset s' => .next s'
  | .stalled => .fault .responseStall
  | .noWord => .fault .awaitingWord
  | .waiting s' => .next s'
  | .command i s' => exec i s'
  | .reserved opc s' => illegalOpcode opc s'

/-- `s` with an instruction of the opcode table as the next frame that `step` takes. -/
def State.withFetchWord (s : State) (nbits w : Nat) : State := placeFrame (tableFrame nbits w) s

end Sys2Proof.Machine
end

