-- ==== Sys2Proof/Machine/Assembler.lean ====
section
/-! DEFINITION. The assembler and the disassembler of command streams (30_encoding.md R96 to R98), on lines whose
operands are byte strings. Machine/AsmText.lean reads such lines from text. -/

namespace Sys2Proof.Machine

/-- One line of a command program (R96). -/
inductive AsmLine where
  | init (key nonce aad : List Byte)
  | encrypt (data : List Byte)
  | decrypt (data : List Byte)
  | finish
  | tagcmp (t1 t2 : List Byte)
  | abort
  /-- `.frame`: any header -/
  | frame (opc rsvd len : Nat) (data : List Byte)
  /-- `.word`: raw words, no framing check -/
  | word (ws : List Word)
  deriving DecidableEq, Repr

/-- The frame of a mnemonic's operand bytes, with `RSVD = 0`; an operand longer than LEN can say is an error. -/
def asmFrame (opc : Byte) (operands : List Byte) : Option (List Word) :=
  if operands.length < 2 ^ 64 then some (frameWords opc 0 operands) else none

/-- The words of a line (R96); `none` is an assembler error, for which "the assembler emits no words". -/
def assemble : AsmLine → Option (List Word)
  | .init key nonce aad =>
    if key.length = 32 ∧ nonce.length = 12 then asmFrame 0x01 (key ++ nonce ++ aad) else none
  | .encrypt data => asmFrame 0x02 data
  | .decrypt data => asmFrame 0x03 data
  | .finish => asmFrame 0x04 []
  | .tagcmp t1 t2 => if t1.length = 16 ∧ t2.length = 16 then asmFrame 0x05 (t1 ++ t2) else none
  | .abort => asmFrame 0x06 []
  | .frame opc rsvd len data =>
    if opc < 2 ^ 8 ∧ rsvd < 2 ^ 24 ∧ len < 2 ^ 64 ∧ data.length ≤ 4 * wordCount len then
      some (hw0Of (BitVec.ofNat 8 opc) (BitVec.ofNat 24 rsvd) :: BitVec.ofNat 32 len ::
        BitVec.ofNat 32 (len / 2 ^ 32) :: packWords (data ++ zeros (4 * wordCount len - data.length)))
    else none
  | .word ws => if ws = [] then none else some ws

/-- The words of a program, line after line; an error in any line is an error. -/
def assembleAll : List AsmLine → Option (List Word)
  | [] => some []
  | l :: ls =>
    match assemble l, assembleAll ls with
    | some ws, some rest => some (ws ++ rest)
    | some _, none => none
    | none, _ => none

/-- SEAL (R97). -/
def sealMessage (key nonce aad pt : List Byte) : List AsmLine := [.init key nonce aad, .encrypt pt, .finish]

/-- OPEN (R97). `finishTag` is `$tag`, the tag that FINISH returned and the host substitutes. -/
def openMessage (key nonce aad ct tag finishTag : List Byte) : List AsmLine :=
  [.init key nonce aad, .decrypt ct, .finish, .tagcmp finishTag tag]

/-- The line of a command with `RSVD = 0` and a legal LEN (R98). -/
def lineOfInstr : Instr → AsmLine
  | .init _ p => .init (keyOf p) (nonceOf p) (aadOf p)
  | .encrypt _ p => .encrypt p
  | .decrypt _ p => .decrypt p
  | .finish _ _ => .finish
  | .tagcmp _ p => .tagcmp (tag1Of p) (tag2Of p)
  | .abort _ _ => .abort

/-- A frame as `.frame` with its fields (R98). -/
def frameLine (f : Frame) : AsmLine :=
  .frame (opcField f.hw0).toNat (rsvdField f.hw0).toNat f.len f.payload

/-- The line a frame prints as (R98): its mnemonic where the opcode is defined, `RSVD = 0` and LEN is legal. -/
def lineOfFrame (f : Frame) : AsmLine :=
  match decodeFrame f with
  | none => frameLine f
  | some i =>
    if i.rsvd = 0 ∧ legalLen (commandOf i) i.payload.length = true then lineOfInstr i else frameLine f

/-- The lines of the first `n` frames of a word sequence, and of what is left. -/
def disassembleFrames : Nat → List Word → List AsmLine
  | _, [] => []
  | 0, w :: ws => [.word (w :: ws)]
  | n + 1, w :: ws =>
    match splitFrame (w :: ws) with
    | none => [.word (w :: ws)]
    | some (f, rest) => lineOfFrame f :: disassembleFrames n rest

/-- The disassembler, total on any word sequence: "a trailing partial frame prints as `.word`" (R98). -/
def disassemble (ws : List Word) : List AsmLine := disassembleFrames ws.length ws

end Sys2Proof.Machine
end

