-- ==== Sys2Proof/Machine/AsmText.lean ====
section
/-! DEFINITION. Reading one line of assembler text (30_encoding.md R96, R97) as lines of Machine/Assembler.lean.
Text is a list of characters. What the rule's forms leave open (number bases, where blanks may stand) is log entry 9's. -/

namespace Sys2Proof.Machine

/-- Blanks between the parts of a line. -/
def isBlank (c : Char) : Bool := c = ' ' || c = '\t'

/-- `cs` without blanks at either end. -/
def trim (cs : List Char) : List Char := ((cs.dropWhile isBlank).reverse.dropWhile isBlank).reverse

/-- `cs` without its comment: `;` starts one (R96). That a `;` inside double quotes is text and starts none is DESIGN
CHOICE (log entry 9). -/
def stripComment : Bool → List Char → List Char
  | _, [] => []
  | quoted, c :: cs =>
    if c = '"' then c :: stripComment (!quoted) cs
    else if c = ';' ∧ quoted = false then []
    else c :: stripComment quoted cs

/-- The operands of `cs`: its parts between commas (R96). That a `,` inside double quotes is text and separates none is
DESIGN CHOICE (log entry 9). -/
def splitOperands : Bool → List Char → List (List Char)
  | _, [] => [[]]
  | quoted, c :: cs =>
    if c = ',' ∧ quoted = false then [] :: splitOperands quoted cs
    else
      match splitOperands (if c = '"' then !quoted else quoted) cs with
      | [] => [[c]]
      | x :: xs => (c :: x) :: xs

/-- The value of a digit in a base up to 16. -/
def digit (base : Nat) (c : Char) : Option Nat :=
  let v := if '0' ≤ c ∧ c ≤ '9' then c.toNat - '0'.toNat
    else if 'a' ≤ c ∧ c ≤ 'f' then c.toNat - 'a'.toNat + 10
    else if 'A' ≤ c ∧ c ≤ 'F' then c.toNat - 'A'.toNat + 10
    else 16
  if v < base then some v else none

/-- The number a digit sequence continues from `acc`. -/
def digitsFrom (base : Nat) : Nat → List Char → Option Nat
  | acc, [] => some acc
  | acc, c :: cs =>
    match digit base c with
    | some v => digitsFrom base (acc * base + v) cs
    | none => none

/-- A number: decimal digits, or hexadecimal digits after `0x`. -/
def numberOf (cs : List Char) : Option Nat :=
  match cs with
  | [] => none
  | '0' :: 'x' :: c :: ds => digitsFrom 16 0 (c :: ds)
  | c :: ds => digitsFrom 10 0 (c :: ds)

/-- A raw word of `.word`: hexadecimal digits, `0x` before them or not. -/
def rawWordOf (cs : List Char) : Option Word :=
  let v := match cs with
    | [] => none
    | '0' :: 'x' :: c :: ds => digitsFrom 16 0 (c :: ds)
    | c :: ds => digitsFrom 16 0 (c :: ds)
  match v with
  | some n => if n < 2 ^ 32 then some (BitVec.ofNat 32 n) else none
  | none => none

/-- `<hex>`: byte pairs in payload order; spaces and `:` may stand between pairs (R96). That a `:` or a space is also
accepted before the first pair, after the last pair, several in a row, and with no pair at all is DESIGN CHOICE (log
entry 9). An operand with nothing but blanks does not come here: `bytesOperand` and `hexOperand` refuse it. -/
def hexBytes : List Char → Option (List Byte)
  | [] => some []
  | [c] => if c = ' ' ∨ c = ':' then some [] else none
  | a :: b :: cs =>
    if a = ' ' ∨ a = ':' then hexBytes (b :: cs)
    else
      match digit 16 a, digit 16 b, hexBytes cs with
      | some x, some y, some rest => some (BitVec.ofNat 8 (16 * x + y) :: rest)
      | _, _, _ => none

/-- The text up to the closing quote, which ends the operand: its ASCII bytes (R96). -/
def quotedBytes : List Char → Option (List Byte)
  | [] => none
  | c :: cs =>
    if c = '"' then (if cs = [] then some [] else none)
    else if c.toNat < 128 then (quotedBytes cs).map (BitVec.ofNat 8 c.toNat :: ·)
    else none

/-- `<hex or "text">` (R96); `""` is the empty byte string. That an operand with nothing written, or only blanks, is an
assembler error and not the empty sequence of pairs is DESIGN CHOICE (log entry 9). -/
def bytesOperand (cs : List Char) : Option (List Byte) :=
  match trim cs with
  | [] => none
  | c :: rest => if c = '"' then quotedBytes rest else hexBytes (c :: rest)

/-- `<hex>` alone (R96); `""` is the empty byte string. That an operand with nothing written, or only blanks, is an
assembler error and not the empty sequence of pairs is DESIGN CHOICE (log entry 9). -/
def hexOperand (cs : List Char) : Option (List Byte) :=
  match trim cs with
  | [] => none
  | ['"', '"'] => some []
  | c :: rest => hexBytes (c :: rest)

/-- A tag operand: `<hex>`, or `$tag`, the tag FINISH returned (R97). -/
def tagOperand (finishTag : List Byte) (cs : List Char) : Option (List Byte) :=
  if trim cs = ['$', 't', 'a', 'g'] then some finishTag else hexOperand cs

/-- The operand after `name=`. -/
def keyed (name cs : List Char) : Option (List Char) :=
  if (trim cs).take (name.length + 1) = name ++ ['='] then some ((trim cs).drop (name.length + 1)) else none

/-- The bytes after `name=`, read by `read`. -/
def keyedBytes (read : List Char → Option (List Byte)) (name cs : List Char) : Option (List Byte) :=
  (keyed name cs).bind read

/-- The number after `name=`. -/
def keyedNumber (name cs : List Char) : Option Nat := (keyed name cs).bind fun v => numberOf (trim v)

/-- All operands of `.word`. -/
def rawWords : List (List Char) → Option (List Word)
  | [] => some []
  | x :: xs =>
    match rawWordOf (trim x), rawWords xs with
    | some w, some ws => some (w :: ws)
    | _, _ => none

/-- INIT's operands. -/
def readInit (ops : List (List Char)) : Option AsmLine :=
  match ops with
  | [k, n] =>
    match keyedBytes hexOperand ['k', 'e', 'y'] k, keyedBytes hexOperand ['n', 'o', 'n', 'c', 'e'] n with
    | some key, some nonce => some (.init key nonce [])
    | _, _ => none
  | [k, n, a] =>
    match keyedBytes hexOperand ['k', 'e', 'y'] k, keyedBytes hexOperand ['n', 'o', 'n', 'c', 'e'] n,
        keyedBytes bytesOperand ['a', 'a', 'd'] a with
    | some key, some nonce, some aad => some (.init key nonce aad)
    | _, _, _ => none
  | _ => none

/-- `.frame`'s operands. -/
def readFrame (ops : List (List Char)) : Option AsmLine :=
  match ops with
  | [o, r, l, d] =>
    match keyedNumber ['o', 'p', 'c'] o, keyedNumber ['r', 's', 'v', 'd'] r, keyedNumber ['l', 'e', 'n'] l,
        keyedBytes hexOperand ['d', 'a', 't', 'a'] d with
    | some opc, some rsvd, some len, some data => some (.frame opc rsvd len data)
    | _, _, _, _ => none
  | _ => none

/-- SEAL's operands (R97), each in the form that the command it expands to takes (DESIGN CHOICE, log entry 9). -/
def readSeal (ops : List (List Char)) : Option (List AsmLine) :=
  match ops with
  | [k, n, a, p] =>
    match hexOperand k, hexOperand n, bytesOperand a, bytesOperand p with
    | some key, some nonce, some aad, some pt => some (sealMessage key nonce aad pt)
    | _, _, _, _ => none
  | _ => none

/-- OPEN's operands (R97), each in the form that the command it expands to takes (DESIGN CHOICE, log entry 9). -/
def readOpen (finishTag : List Byte) (ops : List (List Char)) : Option (List AsmLine) :=
  match ops with
  | [k, n, a, c, t] =>
    match hexOperand k, hexOperand n, bytesOperand a, bytesOperand c, hexOperand t with
    | some key, some nonce, some aad, some ct, some tag => some (openMessage key nonce aad ct tag finishTag)
    | _, _, _, _, _ => none
  | _ => none

/-- A statement: its mnemonic and its operand text. -/
def readStatement (finishTag : List Byte) (mnemonic operands : List Char) : Option (List AsmLine) :=
  let ops := splitOperands false operands
  if mnemonic = "INIT".toList then (readInit ops).map ([·])
  else if mnemonic = "ENCRYPT".toList then (bytesOperand operands).map fun d => [.encrypt d]
  else if mnemonic = "DECRYPT".toList then (bytesOperand operands).map fun d => [.decrypt d]
  else if mnemonic = "FINISH".toList then if trim operands = [] then some [.finish] else none
  else if mnemonic = "ABORT".toList then if trim operands = [] then some [.abort] else none
  else if mnemonic = "TAGCMP".toList then
    match ops with
    | [x, y] =>
      match tagOperand finishTag x, tagOperand finishTag y with
      | some t1, some t2 => some [.tagcmp t1 t2]
      | _, _ => none
    | _ => none
  else if mnemonic = ".frame".toList then (readFrame ops).map ([·])
  else if mnemonic = ".word".toList then (rawWords ops).map fun ws => [.word ws]
  else if mnemonic = "SEAL".toList then readSeal ops
  else if mnemonic = "OPEN".toList then readOpen finishTag ops
  else none

/-- One line of text (R96, R97): no line for a blank or a comment, the expansion for a pseudo-instruction, `none`
for an assembler error. `finishTag` is what `$tag` stands for. -/
def readLine (finishTag : List Byte) (cs : List Char) : Option (List AsmLine) :=
  let body := trim (stripComment false cs)
  if body = [] then some []
  else readStatement finishTag (body.takeWhile fun c => !isBlank c) (body.dropWhile fun c => !isBlank c)

/-- A line of text to words (R96): an error, in its form or in a byte count, gives no words. -/
def assembleText (finishTag : List Byte) (cs : List Char) : Option (List Word) :=
  (readLine finishTag cs).bind assembleAll

end Sys2Proof.Machine
end

