-- ==== Sys2Proof/Machine/HostPort.lean ====
section
/-! DEFINITION. What the host can do to one core at its ports, between steps (00_scope.md R14, 30_encoding.md R80,
70_reset_and_hazards.md R300 to R304, R311), and what the core drives on its output ports. -/

namespace Sys2Proof.Machine

/-- The host offers further command words, after those it already offers (R69, R80, R310). -/
def offerWords (ws : List Word) (s : State) : State :=
  { s with ports := { s.ports with cmdIn := s.ports.cmdIn ++ ws } }

/-- The host takes up to `n` of the response words that are on their way, the oldest first; a command word the core
held back is accepted once it is no longer stalled (R311). No word moves while `rst` is 1 (R300). -/
def readWords (n : Nat) (s : State) : State :=
  if s.ports.rst = true then s
  else { s with ports := Ports.acceptLast { s.ports with rspMoved := s.ports.rspMoved ++ s.ports.rspOut.take n,
                                                         rspOut := s.ports.rspOut.drop n } }

/-- The host drives `rsp_ready` (R80). At 1, the words that are on their way move in the steps and reads that follow. -/
def setRspReady (ready : Bool) (s : State) : State :=
  { s with ports := Ports.acceptLast { s.ports with rspReady := ready } }

/-- The host stops offering the words not accepted, which it may do while `rst` is 1: the frame they belong to is
discarded (R301). -/
def withdrawWords (s : State) : State :=
  if s.ports.rst = true then { s with ports := { s.ports with cmdIn := [], cmdLast := none } } else s

/-- The host asserts `rst` (R300, R301). -/
def assertReset (s : State) : State :=
  let s' := hardReset s
  { s' with ports := { s'.ports with rst := true } }

/-- The host returns `rst` to 0: "every register holds the value in 10_state.md rule R39" (R300). -/
def releaseReset (s : State) : State :=
  if s.ports.rst = true then
    let s' := hardReset s
    { s' with ports := { s'.ports with rst := false } }
  else s

/-- `rsp_valid` (R80, R300). -/
def rspValid (s : State) : Bool := !s.ports.rst && !s.ports.rspOut.isEmpty

/-- `rsp_data` while `rsp_valid` is 1 (R80). -/
def rspData (s : State) : Option Word := if rspValid s = true then s.ports.rspOut.head? else none

/-- `cmd_ready`: 0 during reset (R300) and while the core is stalled (R311); 1 otherwise is the model's choice
(log entry 13). -/
def cmdReady (s : State) : Bool := !s.ports.rst && !s.ports.stalled

end Sys2Proof.Machine
end

