-- ==== Sys2Proof/Machine/System.lean ====
section
/-! DEFINITION. Several instances in one system (00_scope.md R15, 60_exceptions.md R274): each holds its own state
and steps on its own. -/

namespace Sys2Proof.Machine

/-- The instances of a system, in no order the cores know (R274). -/
structure System where
  instances : List State
  deriving DecidableEq, Repr

/-- Every instance right after its own reset (R274). -/
def System.reset : System := { instances := List.replicate Config.numInstances State.reset }

/-- Instance `k` takes one step; `none` where there is no such instance or its step stops. -/
def System.stepAt (k : Nat) (y : System) : Option System :=
  match y.instances[k]? with
  | none => none
  | some s =>
    match step s with
    | .next s' => some { instances := y.instances.set k s' }
    | .fault _ => none
    | .refused _ => none

/-- The host acts on instance `k` alone. -/
def System.actAt (k : Nat) (act : State → State) (y : System) : System :=
  { instances := y.instances.modify k act }

end Sys2Proof.Machine
end

