-- ==== Sys2Proof/Safety.lean ====
section
/-! DEFINITION. What claims about the core are stated in: when a state is one the rules allow (10_state.md R38),
the responses, the commands of one session run in order (R69), and the AEAD function of
42_aead_commands.md R222 written directly over byte sequences. -/

namespace Sys2Proof.Machine

/-! ## Outcomes -/

/-- The next state, where there is one. -/
def nextState : Answer → Option State
  | .next s => some s
  | .fault _ => none
  | .refused _ => none

/-- The fault, where there is one. -/
def faultOf : Answer → Option Fault
  | .next _ => none
  | .fault f => some f
  | .refused _ => none

/-- A safe answer: a next state, or one of the two stuck states in which the core waits for the host (R304, R311).
The internal fault and a refusal are not safe. -/
def safeAnswer : Answer → Bool
  | .next _ => true
  | .fault .awaitingWord => true
  | .fault .responseStall => true
  | .fault .polyTail => false
  | .refused _ => false

/-! ## Responses -/

/-- Every response word of the commands executed so far, moved or on its way, the oldest first. -/
def responses (s : State) : List Word := s.ports.rspMoved ++ s.ports.rspOut

/-- The core can go on: the host reads, or no more response words are on their way than the core can hold (R311). -/
abbrev NotStalled (s : State) : Prop := s.ports.rspReady = true ∨ s.ports.rspOut.length ≤ Config.rspBufWords

/-- The payload length RLEN of a performed command's response (R95). -/
def rlen : Instr → Nat
  | .init _ _ => 0
  | .encrypt _ p => p.length
  | .decrypt _ p => p.length
  | .finish _ _ => 16
  | .tagcmp _ _ => 0
  | .abort _ _ => 0

/-- RLEN of a command's response (R95): an error response has no payload. -/
def responseLength (err : Option ErrCode) (i : Instr) : Nat :=
  match err with
  | none => rlen i
  | some _ => 0

/-- The response frame of a performed command. -/
def okResponse (opc : Byte) (eq : Bool) (st : SessionState) (payload : List Byte) : List Word :=
  responseWords (statusWord opc none eq st) payload

/-- The response frame of a command that ends in an error (R262). -/
def errorResponse (opc : Byte) (e : ErrCode) (st : SessionState) : List Word :=
  [statusWord opc (some e) false st, 0, 0]

/-- What a command does where it answers a next state: the new `st`, the session registers, and its response words,
after the responses of all commands before. The parser's registers are unchanged. -/
def Answers (i : Instr) (s : State) (st : SessionState) (session : Session) (response : List Word) : Prop :=
  ∃ t, exec i s = .next t ∧ t.st = st ∧ t.session = session ∧ t.parser = s.parser ∧ responses t = responses s ++ response

/-- The command is performed (`OK` in R264's table): `ERR = 0` in its response's status word, and the new `st`. -/
abbrev OkTo (st : SessionState) (i : Instr) (s t : State) : Prop :=
  t.st = st ∧ ∃ eq payload, responses t = responses s ++ okResponse i.opc eq st payload

/-- The command ends in an error (R262): the error response, and the unchanged `st`. -/
abbrev EndsIn (e : ErrCode) (i : Instr) (s t : State) : Prop :=
  t.st = s.st ∧ responses t = responses s ++ errorResponse i.opc e s.st

/-! ## States the rules allow -/

/-- A session is live: INIT is done and neither FINISH nor ABORT is. -/
abbrev Live (s : State) : Prop := s.st ≠ .uninit ∧ s.st ≠ .finished

/-- What R38 says of the registers of a live session, with R22, R160 and R214: the partial block and the cursor
follow from `dataLength`, so does the counter's low word (`BC = 1 + ceil(D / 64)`), `h` is a residue, the
constants are in place and `r` is clamped. -/
abbrev LiveSession (n : Session) : Prop :=
  n.auth.pn.val = n.dataLength.toNat % 16 ∧
  n.cipher.ko.val = (if n.dataLength.toNat % 64 = 0 then 64 else n.dataLength.toNat % 64) ∧
  n.cipher.cs[12] = BitVec.ofNat 32 (1 + (n.dataLength.toNat + 63) / 64) ∧
  n.auth.h < polyP ∧
  (n.cipher.cs[0] = 0x61707865 ∧ n.cipher.cs[1] = 0x3320646e ∧ n.cipher.cs[2] = 0x79622d32 ∧
    n.cipher.cs[3] = 0x6b206574) ∧
  n.auth.r &&& clampMask = n.auth.r

/-- The session registers agree with `st` (R38): live values in a live session; reset values otherwise. -/
abbrev SessionInv (s : State) : Prop :=
  (Live s → LiveSession s.session) ∧
  (¬ Live s → s.session = Session.reset) ∧
  (s.st = .initialized → s.session.dataLength = 0)

/-- The parser's registers agree with each other (R81): in `PAY`, `rem` words of the frame are missing; elsewhere
no payload word is held. -/
abbrev ParserInv (p : Parser) : Prop :=
  (p.ph = .pay → 0 < p.rem.toNat ∧ p.pw.length + p.rem.toNat = wordCount (lenField p.hw1 p.hw2)) ∧
  (p.ph ≠ .pay → p.rem = 0 ∧ p.pw = [])

/-- The streams' limits: a command word is held back only while the core is stalled (R311), and while `rst` is 1 no
response word is on its way (R300, R301). -/
abbrev PortsInv (p : Ports) : Prop :=
  (p.cmdLast ≠ none → p.rspReady = false ∧ Config.rspBufWords < p.rspOut.length) ∧
  (p.rst = true → p.rspOut = [] ∧ p.cmdLast = none)

/-- The states the rules allow. -/
abbrev CoreInv (s : State) : Prop := SessionInv s ∧ ParserInv s.parser ∧ PortsInv s.ports

/-! ## Commands in order -/

/-- Commands executed one after the other (R69); `none` as soon as one does not answer a next state. -/
def execAll : List Instr → State → Option State
  | [], s => some s
  | i :: is, s =>
    match exec i s with
    | .next s' => execAll is s'
    | .fault _ => none
    | .refused _ => none

/-! ## The AEAD function of a session, over byte sequences -/

/-- The ChaCha20 state right after SC_INIT (R121). -/
def initialWords (key nonce : List Byte) : Vector Word 16 := (scInit key nonce StreamCipher.reset).cs

/-- The cipher state after `q` blocks (R132). -/
def wordsAfter : Nat → Vector Word 16 → Vector Word 16
  | 0, cs => cs
  | q + 1, cs => wordsAfter q (ctrInc cs)

/-- Byte `j` of the keystream that starts at the state `cs`: byte `j mod 64` of block `j / 64` (R132). -/
def keystreamByte (cs : Vector Word 16) (j : Nat) : Byte :=
  (block (wordsAfter (j / 64) cs))[j % 64]'(Nat.mod_lt j (by decide))

/-- `data` XOR the keystream from byte `start` on (R222). -/
def xorKeystream (cs : Vector Word 16) : Nat → List Byte → List Byte
  | _, [] => []
  | j, b :: bs => (b ^^^ keystreamByte cs j) :: xorKeystream cs (j + 1) bs

/-- The one-time key: the first 32 bytes of keystream block 0 (R202, R222). -/
def oneTimeKey (key nonce : List Byte) : List Byte :=
  (List.range 32).map (keystreamByte (initialWords key nonce))

/-- The Poly1305 value of `n` whole blocks of `m`, from `h` (R162). -/
def polyBlocks (r : BitVec 128) : Nat → List Byte → Nat → Nat
  | 0, _, h => h
  | n + 1, m, h => polyBlocks r n (m.drop 16) (((h + (2 ^ 128 + leNat (m.take 16))) * r.toNat) % (2 ^ 130 - 5))

/-- `Poly1305(k, m)` for a message of whole blocks (R222). -/
def poly1305 (k m : List Byte) : List Byte :=
  toLE 16 ((polyBlocks (BitVec.ofNat 128 (leNat (k.take 16)) &&& 0x0ffffffc0ffffffc0ffffffc0fffffff)
    (m.length / 16) m 0 + leNat ((k.drop 16).take 16)) % 2 ^ 128)

/-- The message the tag covers (R222): the AAD, the ciphertext, each padded to whole blocks, and the lengths. -/
def taggedMessage (aad ct : List Byte) : List Byte :=
  aad ++ zeros ((16 - aad.length % 16) % 16) ++ ct ++ zeros ((16 - ct.length % 16) % 16) ++
    toLE 8 aad.length ++ toLE 8 (ct.length % 2 ^ 64)

/-- The tag of a session (R222). -/
def aeadTag (key nonce aad ct : List Byte) : List Byte := poly1305 (oneTimeKey key nonce) (taggedMessage aad ct)

/-- The data a session emits: `X XOR KS` from keystream byte 64 on (R222). -/
def aeadData (key nonce data : List Byte) : List Byte := xorKeystream (initialWords key nonce) 64 data

/-- The emission of a performed data command: the response frames of consecutive chunks of `data`. -/
def dataResponses (opc : Byte) (st : SessionState) : List (List Byte) → List Word
  | [] => []
  | c :: cs => okResponse opc false st c ++ dataResponses opc st cs

/-- `data` cut into consecutive chunks of the lengths of `chunks`. -/
def cutLike : List (List Byte) → List Byte → List (List Byte)
  | [], _ => []
  | c :: cs, data => data.take c.length :: cutLike cs (data.drop c.length)

end Sys2Proof.Machine
end

