-- ==== Sys2Proof/Certificates/Slice0/Obligations.lean ====
section
/-! DEFINITION. The statements about the C20P1305 core, from the numbered rules of the spec. A rule the spec itself
marks "[derived: ...]" is cited as a section, not as a rule (see the docstrings). -/

open Sys2Proof Sys2Proof.Machine

/-! ## Reset -/

/-- R39: every register's value after hardware reset. -/
def Obligations.ResetValues : Prop :=
  State.reset.st = .uninit ∧ State.reset.st.code = 0 ∧
  (∀ i : Fin 16, State.reset.session.cipher.cs[i] = 0) ∧ (∀ i : Fin 64, State.reset.session.cipher.ks[i] = 0) ∧
  State.reset.session.cipher.ko.val = 64 ∧
  State.reset.session.auth.h = 0 ∧ State.reset.session.auth.r = 0 ∧ State.reset.session.auth.s = 0 ∧
  (∀ i : Fin 16, State.reset.session.auth.pb[i] = 0) ∧ State.reset.session.auth.pn.val = 0 ∧
  State.reset.session.authLength = 0 ∧ State.reset.session.dataLength = 0 ∧
  State.reset.parser.ph = .hdr0 ∧ State.reset.parser.hw0 = 0 ∧ State.reset.parser.hw1 = 0 ∧
  State.reset.parser.hw2 = 0 ∧ State.reset.parser.rem = 0

/-- While `rst` is 1, `cmd_ready` and `rsp_valid` are 0 and no word moves on either stream; when `rst` returns to 0
every register holds its reset value, the core waits, and the next command word is `hw0` of a new frame (R300). That a
step is taken while `rst` is 1, answers next, and leaves every register at its reset value already, is the model's own
clause (log entry 7, DEDUCED), and so is that the words offered before stay offered. -/
def Obligations.ResetHoldsTheCore : Prop :=
  ∀ s : State,
    (s.ports.rst = true →
      cmdReady s = false ∧ rspValid s = false ∧ (∀ n, readWords n s = s) ∧
      (∃ t, step s = .next t ∧ t.st = State.reset.st ∧ t.session = State.reset.session ∧
        t.parser = State.reset.parser ∧ t.ports.rst = true ∧ t.ports.offered = s.ports.offered ∧
        t.ports.rspMoved = s.ports.rspMoved) ∧
      (releaseReset s).st = State.reset.st ∧ (releaseReset s).session = State.reset.session ∧
      (releaseReset s).parser = State.reset.parser ∧ (releaseReset s).ports.rst = false ∧
      (s.ports.offered = [] → step (releaseReset s) = .fault .awaitingWord) ∧
      step (releaseReset (withdrawWords s)) = .fault .awaitingWord ∧
      ∀ w, acceptWord w (releaseReset s).parser = ({ Parser.reset with hw0 := w, ph := .hdr1 }, none))

/-- R301: reset in the middle of a frame or of a response discards the partly received frame, the command's effect, the
session and the response words that have not moved. A response of any length may be cut after any number `k` of its
words: those the host has read stay with it, and no further word of it moves. That reading and reset act between steps is
the model's choice (log entry 2, DESIGN CHOICE; log entry 7, DEDUCED). -/
def Obligations.ResetDiscardsFrameAndSession : Prop :=
  ∀ s : State,
    (releaseReset (assertReset s)).st = .uninit ∧ (releaseReset (assertReset s)).session = Session.reset ∧
    (releaseReset (assertReset s)).parser.ph = .hdr0 ∧ (releaseReset (assertReset s)).parser.pw = [] ∧
    (releaseReset (assertReset s)).parser.rem = 0 ∧ (releaseReset (assertReset s)).ports.rspOut = [] ∧
    (releaseReset (assertReset s)).ports.rspMoved = s.ports.rspMoved ∧
    (s.ports.rst = false → ∀ k,
      (releaseReset (assertReset (readWords k s))).ports.rspMoved = s.ports.rspMoved ++ s.ports.rspOut.take k ∧
      (releaseReset (assertReset (readWords k s))).ports.rspOut = [] ∧
      (releaseReset (assertReset (readWords k s))).st = .uninit ∧
      (releaseReset (assertReset (readWords k s))).session = Session.reset)

/-! ## Encoding and the parser -/

/-- A few words written out from R82, R83 and R86: what each decodes to. -/
def Obligations.HeaderWordsDecode : Prop :=
  decode [0x00000004, 0, 0] = .instr (.finish 0 []) [] ∧
  decode [0x00000006, 0, 0, 7] = .instr (.abort 0 []) [7] ∧
  decode [0x00000106, 0, 0] = .instr (.abort 1 []) [] ∧
  decode [0x00000002, 5, 0, 0x04030201, 0xffffff05] = .instr (.encrypt 0 [1, 2, 3, 4, 5]) [] ∧
  decode [0x00000003, 1, 0, 0xaa] = .instr (.decrypt 0 [0xaa]) [] ∧
  decode [0x00000000, 0, 0] = .reservedOpcode 0 [] ∧
  decode [0x00000107, 1, 0, 9, 8] = .reservedOpcode 7 [8] ∧
  decode [0x00000001, 0x2c, 0] = .incompleteFrame

/-- Decoding an encoded command gives it back, with every reserved field and every payload the LEN field can frame,
and leaves the words after it (R82 to R86). -/
def Obligations.DecodeOfEncode : Prop :=
  ∀ (i : Instr) (rest : List Word), i.wellFormed = true → decode (encode i ++ rest) = .instr i rest

/-- What a decoded command keeps of its frame: the three header words are those of its encoding, its payload is
the first LEN lanes of the payload words (R84), and the frame is `3 + ceil(LEN / 4)` words (R85). -/
def Obligations.DecodedCommandKeepsItsFrame : Prop :=
  ∀ (ws : List Word) (i : Instr) (rest : List Word), decode ws = .instr i rest →
    i.wellFormed = true ∧ ws.take 3 = (encode i).take 3 ∧
    i.payload = (laneBytes (ws.drop 3)).take i.payload.length ∧
    rest = ws.drop (3 + wordCount i.payload.length) ∧ ws.length = 3 + wordCount i.payload.length + rest.length

/-- R89: among whole frames, exactly those with opcode 0x00 or 0x07 to 0xFF are decoded to no command, whatever
their reserved bits and payload. -/
def Obligations.ReservedOpcodesAreRejected : Prop :=
  ∀ (f : Frame), decodeFrame f = none ↔ (f.hw0.extractLsb' 0 8 = 0 ∨ 7 ≤ (f.hw0.extractLsb' 0 8).toNat)

/-- R91 and R92: the words of a response frame of fewer than 2^64 payload bytes. The status word comes first, then
`rw1 = RLEN mod 2^32` and `rw2 = floor(RLEN / 2^32)`, then `ceil(RLEN / 4)` payload words: payload byte `i` sits in
payload word `i / 4` at bits `8*(i mod 4)+7 .. 8*(i mod 4)`, and the unused lanes are 0. -/
def Obligations.PackedByteLanes : Prop :=
  ∀ (status : Word) (b : List Byte), b.length < 2 ^ 64 →
    (responseWords status b).length = 3 + (b.length + 3) / 4 ∧
    (responseWords status b).getD 0 0 = status ∧
    ((responseWords status b).getD 1 0).toNat = b.length % 2 ^ 32 ∧
    ((responseWords status b).getD 2 0).toNat = b.length / 2 ^ 32 ∧
    ∀ i, i < 4 * ((b.length + 3) / 4) →
      ((responseWords status b).getD (3 + i / 4) 0).extractLsb' (8 * (i % 4)) 8 = b.getD i 0

/-- R81: a step of a core that is not stalled takes the frame at the front of the command stream and executes its
command, with the parser back in `HDR0`. Two clauses are the model's choice: that all response words on their way move to
a reading host before the command runs (`Ports.settle`; log entry 2, DESIGN CHOICE), and that the frame's last payload
word is the one that may be held back (`cmdLast`; log entry 4, DESIGN CHOICE). -/
def Obligations.StepRunsTheDecodedCommand : Prop :=
  ∀ (s : State) (i : Instr) (rest : List Word), s.ports.rst = false → NotStalled s → s.parser.ph = .hdr0 →
    decode s.ports.cmdIn = .instr i rest →
    step s = exec i { s with
      parser := { ph := .hdr0, hw0 := s.ports.cmdIn.getD 0 0, hw1 := s.ports.cmdIn.getD 1 0,
                  hw2 := s.ports.cmdIn.getD 2 0, rem := 0, pw := [] }
      ports := { s.ports.settle with
                 cmdIn := rest
                 cmdLast := ((s.ports.cmdIn.drop 3).take (wordCount i.payload.length)).getLast? } }

/-- R89: a whole frame with opcode 0x00 or 0x07 to 0xFF, whatever its reserved bits, length and payload, ends in
`ILLEGAL_OPCODE`: it is consumed whole, the state is unchanged, and its response is the status word with its opcode, the
code and the unchanged `st`, and two zero words. -/
def Obligations.ReservedOpcodeStep : Prop :=
  ∀ (s : State) (f : Frame) (rest : List Word), s.ports.rst = false → NotStalled s → s.parser.ph = .hdr0 →
    splitFrame s.ports.cmdIn = some (f, rest) →
    (f.hw0.extractLsb' 0 8 = 0 ∨ 7 ≤ (f.hw0.extractLsb' 0 8).toNat) →
    ∃ t, step s = .next t ∧ t.st = s.st ∧ t.session = s.session ∧ t.parser.ph = .hdr0 ∧ t.ports.offered = rest ∧
      responses t = responses s ++ errorResponse (f.hw0.extractLsb' 0 8) .illegalOpcode s.st

/-- A frame whose words stop arriving leaves the parser waiting in `HDR1`, `HDR2` or `PAY`, with no response and no
effect on `st` or the session; only more words or `rst` move it on, and reading responses does not (R304). That such a
step accepts the words there are and answers next, and that no word at all is the fault `awaitingWord`, is the model's
choice (log entry 1, DEDUCED), and so are the host's acts between steps (log entry 2, DESIGN CHOICE). -/
def Obligations.PartialFrameWaits : Prop :=
  ∀ s : State, s.ports.rst = false → NotStalled s →
    (s.ports.cmdIn = [] → s.ports.rspReady = false ∨ s.ports.rspOut = [] → step s = .fault .awaitingWord) ∧
    (s.ports.cmdIn ≠ [] → s.parser.ph = .hdr0 → decode s.ports.cmdIn = .incompleteFrame →
      ∃ t, step s = .next t ∧ t.st = s.st ∧ t.session = s.session ∧ responses t = responses s ∧
        t.ports.cmdIn = [] ∧ t.parser.ph ≠ .hdr0 ∧ step t = .fault .awaitingWord ∧
        (∀ n, step (readWords n t) = .fault .awaitingWord) ∧
        ∀ b u, step (setRspReady b t) = .next u →
          u.st = t.st ∧ u.session = t.session ∧ u.parser = t.parser ∧ responses u = responses t)

/-- The parser delimits frames word by word (R81): a frame that arrives in two parts has the effect it has when it
arrives at once, in every parse phase. That the host offers words between steps is the model's choice (log entry 2, DESIGN
CHOICE). -/
def Obligations.SplitArrivalIsTheSame : Prop :=
  ∀ (s t : State) (more : List Word), fetch s = .waiting t → more ≠ [] →
    step (offerWords more t) = step (offerWords more s)

/-- Commands execute one at a time, in the order their words arrive (R69): a stream of encoded commands, stepped
once per command, ends with the `st`, the session registers and the responses that executing the commands one after
the other gives, whatever follows them in the stream; the host reads, or the core can hold all the responses (R311). -/
def Obligations.StreamRunsCommandsInOrder : Prop :=
  ∀ (is : List Instr) (rest : List Word) (s u : State), s.ports.rst = false → s.parser.ph = .hdr0 →
    (s.ports.rspReady = true ∨ u.ports.rspOut.length ≤ Config.rspBufWords) →
    (∀ i ∈ is, i.wellFormed = true) → s.ports.cmdIn = is.flatMap encode ++ rest → execAll is s = some u →
    ∃ t, Host.Core.run Sys2Proof.core is.length s = .next t ∧ t.st = u.st ∧ t.session = u.session ∧
      responses t = responses u ∧ t.ports.cmdIn = rest ∧ t.parser.ph = .hdr0

/-! ## Responses -/

/-- R93: the status word's fields, and its bits 15:13 and 31:19 always 0; the codes of `ERR` (R94) and of `ST` (R20). -/
def Obligations.StatusWordLayout : Prop :=
  (∀ (opc : Byte) (err : Option ErrCode) (eq : Bool) (st : SessionState),
    (statusWord opc err eq st).extractLsb' 0 8 = opc ∧
    (statusWord opc err eq st).extractLsb' 8 4 = errField err ∧
    (statusWord opc err eq st).extractLsb' 12 1 = BitVec.ofBool eq ∧
    (statusWord opc err eq st).extractLsb' 13 3 = 0 ∧
    (statusWord opc err eq st).extractLsb' 16 3 = st.code ∧
    (statusWord opc err eq st).extractLsb' 19 13 = 0) ∧
  (errField none = 0 ∧ errField (some .illegalOpcode) = 1 ∧ errField (some .reservedBits) = 2 ∧
    errField (some .badLength) = 3 ∧ errField (some .sequence) = 4 ∧ errField (some .direction) = 5) ∧
  SessionState.uninit.code = 0 ∧ SessionState.initialized.code = 1 ∧ SessionState.authEnc.code = 2 ∧
  SessionState.authDec.code = 3 ∧ SessionState.finished.code = 4

/-- Every command that answers a next state has exactly one response frame (R91), after the responses of all commands
before (R69, R311): its status word has the command's opcode, an ERR field of 0 to 5 (R94) and the new `st` (R93),
its RLEN is the one of R95, `rw1 = RLEN mod 2^32`, `rw2 = floor(RLEN / 2^32)`, and `ceil(RLEN / 4)` payload words
follow. -/
def Obligations.OneResponsePerCommand : Prop :=
  ∀ (i : Instr) (s t : State), i.wellFormed = true → exec i s = .next t →
    ∃ (err : Option ErrCode) (eq : Bool) (rw1 rw2 : Word) (payload : List Byte),
      responses t = responses s ++ statusWord i.opc err eq t.st :: rw1 :: rw2 :: packWords payload ∧
      (errField err).toNat ≤ 5 ∧
      (eq = true → err = none ∧ ∃ r p, i = .tagcmp r p) ∧
      rw1.toNat = payload.length % 2 ^ 32 ∧ rw2.toNat = payload.length / 2 ^ 32 ∧
      (packWords payload).length = (payload.length + 3) / 4 ∧
      payload.length =
        (if err ≠ none then 0
         else match i with
          | .init _ _ => 0
          | .encrypt _ p => p.length
          | .decrypt _ p => p.length
          | .finish _ _ => 16
          | .tagcmp _ _ => 0
          | .abort _ _ => 0)

/-- The deadlock of R311 (D29, I16): a step is stuck exactly when the host does not read and more response words are on
their way than `RSP_BUF_WORDS`, and then `cmd_ready` is 0. Every command, performed or ending in an error, adds the
three words and the payload words of its response to them, and so stalls the core exactly when the sum exceeds what the
core can hold. A data command whose output is then on its way has its last payload word still to be accepted. Which words
are out and which are accepted at that moment, and that `cmd_ready` is 1 otherwise, are the model's choices (log entries
4 and 13, DESIGN CHOICE). -/
def Obligations.UnreadResponsesStall : Prop :=
  ∀ s : State,
    (step s = .fault .responseStall ↔
      s.ports.rst = false ∧ s.ports.rspReady = false ∧ Config.rspBufWords < s.ports.rspOut.length) ∧
    (s.ports.rspReady = false → Config.rspBufWords < s.ports.rspOut.length → cmdReady s = false) ∧
    ∀ (i : Instr) (t : State) (rlen total : Nat), exec i s = .next t →
      rlen = responseLength (check (commandOf i) i.rsvd i.payload.length s.st) i →
      total = s.ports.rspOut.length + (3 + (rlen + 3) / 4) →
      t.ports.rspOut.length = total ∧
      (s.ports.rst = false → s.ports.rspReady = false →
        (step t = .fault .responseStall ↔ Config.rspBufWords < total) ∧
        (cmdReady t = false ↔ Config.rspBufWords < total) ∧
        (Config.rspBufWords < total → rlen ≠ 0 → t.ports.cmdLast = s.ports.cmdLast) ∧
        (total ≤ Config.rspBufWords ∨ rlen = 0 → t.ports.cmdLast = none))

/-! ## Errors -/

/-- R90: a defined opcode with reserved bits not 0 ends in `RESERVED_BITS`, whatever the length and `st`; no
register changes, and a step consumes its whole frame. -/
def Obligations.ReservedBitsError : Prop :=
  ∀ (i : Instr) (s : State) (rest : List Word), i.rsvd ≠ 0 →
    Answers i s s.st s.session (errorResponse i.opc .reservedBits s.st) ∧
    (s.ports.rst = false → NotStalled s → s.parser.ph = .hdr0 → decode s.ports.cmdIn = .instr i rest →
      ∃ t, step s = .next t ∧ t.st = s.st ∧ t.session = s.session ∧ t.ports.offered = rest ∧
        responses t = responses s ++ errorResponse i.opc .reservedBits s.st)

/-- R88: INIT with LEN below 44, FINISH or ABORT with LEN not 0, and TAGCMP with LEN not 32 end in `BAD_LENGTH` in
every `st`; no register changes. -/
def Obligations.BadLengthError : Prop :=
  ∀ (p : List Byte) (s : State),
    (p.length < 44 → Answers (.init 0 p) s s.st s.session (errorResponse 0x01 .badLength s.st)) ∧
    (p.length ≠ 0 → Answers (.finish 0 p) s s.st s.session (errorResponse 0x04 .badLength s.st)) ∧
    (p.length ≠ 32 → Answers (.tagcmp 0 p) s s.st s.session (errorResponse 0x05 .badLength s.st)) ∧
    (p.length ≠ 0 → Answers (.abort 0 p) s s.st s.session (errorResponse 0x06 .badLength s.st))

/-- The `SEQUENCE` row of R261: INIT in a live session, and ENCRYPT, DECRYPT or FINISH in `UNINIT` or `FINISHED`;
no register changes (R262). -/
def Obligations.SequenceError : Prop :=
  ∀ (p : List Byte) (s : State),
    (44 ≤ p.length → (s.st = .initialized ∨ s.st = .authEnc ∨ s.st = .authDec) →
      Answers (.init 0 p) s s.st s.session (errorResponse 0x01 .sequence s.st)) ∧
    ((s.st = .uninit ∨ s.st = .finished) →
      Answers (.encrypt 0 p) s s.st s.session (errorResponse 0x02 .sequence s.st) ∧
      Answers (.decrypt 0 p) s s.st s.session (errorResponse 0x03 .sequence s.st) ∧
      Answers (.finish 0 []) s s.st s.session (errorResponse 0x04 .sequence s.st))

/-- The `DIRECTION` row of R261: the opposite data command, whatever its LEN; no register changes (R262). -/
def Obligations.DirectionError : Prop :=
  ∀ (p : List Byte) (s : State),
    (s.st = .authDec → Answers (.encrypt 0 p) s s.st s.session (errorResponse 0x02 .direction s.st)) ∧
    (s.st = .authEnc → Answers (.decrypt 0 p) s s.st s.session (errorResponse 0x03 .direction s.st))

/-- R262: a command whose response has an error code changes no register, and its response is the status word and
two zero words. -/
def Obligations.ErrorChangesNothing : Prop :=
  ∀ (i : Instr) (s t : State) (err : ErrCode) (eq : Bool) (st : SessionState) (payload : List Byte),
    exec i s = .next t → responses t = responses s ++ responseWords (statusWord i.opc (some err) eq st) payload →
    t.st = s.st ∧ t.session = s.session ∧ t.parser = s.parser ∧
    responses t = responses s ++ [statusWord i.opc (some err) false s.st, 0, 0]

/-- The outcome of each opcode in each `st` (the table of R264), for a frame without an encoding error: where the
command is performed, the new `st` and a response with `ERR = 0`; where it is not, the error code and the unchanged `st`. -/
def Obligations.OutcomeTable : Prop :=
  ∀ (i : Instr) (s t : State), i.rsvd = 0 → exec i s = .next t →
    (match i with
      | .init _ p => 44 ≤ p.length
      | .encrypt _ _ => True
      | .decrypt _ _ => True
      | .finish _ p => p.length = 0
      | .tagcmp _ p => p.length = 32
      | .abort _ p => p.length = 0) →
    match i, s.st with
    | .init _ _, .uninit => OkTo .initialized i s t
    | .init _ _, .finished => OkTo .initialized i s t
    | .init _ _, _ => EndsIn .sequence i s t
    | .encrypt _ _, .initialized => OkTo .authEnc i s t
    | .encrypt _ _, .authEnc => OkTo .authEnc i s t
    | .encrypt _ _, .authDec => EndsIn .direction i s t
    | .encrypt _ _, _ => EndsIn .sequence i s t
    | .decrypt _ _, .initialized => OkTo .authDec i s t
    | .decrypt _ _, .authDec => OkTo .authDec i s t
    | .decrypt _ _, .authEnc => EndsIn .direction i s t
    | .decrypt _ _, _ => EndsIn .sequence i s t
    | .finish _ _, .uninit => EndsIn .sequence i s t
    | .finish _ _, .finished => EndsIn .sequence i s t
    | .finish _ _, _ => OkTo .finished i s t
    | .tagcmp _ _, st => OkTo st i s t
    | .abort _ _, _ => OkTo .uninit i s t

/-! ## The commands performed -/

/-- INIT performed (R201 to R203), for every key, nonce and AAD: SC_INIT's state advanced by one block, that block in
the buffer and used up, the one-time key's `r` (clamped) and `s`, the AAD and its pad absorbed as whole blocks, and
the length registers. Only `pb`, of which no byte is valid (R29), is left open. -/
def Obligations.InitPerformed : Prop :=
  ∀ (key nonce aad : List Byte) (s : State), key.length = 32 → nonce.length = 12 →
    (s.st = .uninit ∨ s.st = .finished) →
    ∃ pb : Vector Byte 16, Answers (.init 0 (key ++ nonce ++ aad)) s .initialized
      { cipher := { cs := ctrInc (initialWords key nonce), ks := block (initialWords key nonce), ko := 64 }
        auth :=
          { h := polyBlocks
              (BitVec.ofNat 128 (leNat ((oneTimeKey key nonce).take 16)) &&& 0x0ffffffc0ffffffc0ffffffc0fffffff)
              ((aad.length + 15) / 16) (aad ++ zeros ((16 - aad.length % 16) % 16)) 0
            r := BitVec.ofNat 128 (leNat ((oneTimeKey key nonce).take 16)) &&& 0x0ffffffc0ffffffc0ffffffc0fffffff
            s := BitVec.ofNat 128 (leNat ((oneTimeKey key nonce).drop 16))
            pb := pb
            pn := 0 }
        authLength := BitVec.ofNat 64 aad.length
        dataLength := 0 }
      (okResponse 0x01 false .initialized [])

/-- ENCRYPT performed (R205), any LEN: the keystream applied, the ciphertext authenticated, `dataLength` advanced
modulo 2^64, the direction fixed, the ciphertext emitted. -/
def Obligations.EncryptPerformed : Prop :=
  ∀ (data : List Byte) (s : State), (s.st = .initialized ∨ s.st = .authEnc) →
    Answers (.encrypt 0 data) s .authEnc
      { cipher := (apply data s.session.cipher).2
        auth := polyUpdate (apply data s.session.cipher).1 s.session.auth
        authLength := s.session.authLength
        dataLength := BitVec.ofNat 64 (s.session.dataLength.toNat + data.length) }
      (okResponse 0x02 false .authEnc (apply data s.session.cipher).1)

/-- DECRYPT performed (R208), any LEN: the payload authenticated as it arrived, the keystream applied, `dataLength`
advanced modulo 2^64, the direction fixed, the plaintext emitted whatever the tag will be. -/
def Obligations.DecryptPerformed : Prop :=
  ∀ (data : List Byte) (s : State), (s.st = .initialized ∨ s.st = .authDec) →
    Answers (.decrypt 0 data) s .authDec
      { cipher := (apply data s.session.cipher).2
        auth := polyUpdate data s.session.auth
        authLength := s.session.authLength
        dataLength := BitVec.ofNat 64 (s.session.dataLength.toNat + data.length) }
      (okResponse 0x03 false .authDec (apply data s.session.cipher).1)

/-- FINISH performed (R211), in every live state the rules allow: the pad and the length block absorbed, the tag
`toLE_16((h mod p + s) mod 2^128)` emitted, the session registers zeroed, `st` FINISHED. -/
def Obligations.FinishPerformed : Prop :=
  ∀ s : State, Live s → LiveSession s.session →
    Answers (.finish 0 []) s .finished Session.reset
      (okResponse 0x04 false .finished
        (toLE 16 (((polyUpdate (toLE 8 s.session.authLength.toNat ++ toLE 8 s.session.dataLength.toNat)
            (polyUpdate (zeros ((16 - s.session.dataLength.toNat % 16) % 16)) s.session.auth)).h % (2 ^ 130 - 5)
          + s.session.auth.s.toNat) % 2 ^ 128)))

/-- TAGCMP performed (R215), in every `st`: no register changes, and EQ is 1 exactly when the two tags are equal. -/
def Obligations.TagcmpPerformed : Prop :=
  ∀ (t1 t2 : List Byte) (s : State), t1.length = 16 → t2.length = 16 →
    Answers (.tagcmp 0 (t1 ++ t2)) s s.st s.session (okResponse 0x05 (decide (t1 = t2)) s.st [])

/-- ABORT performed (R217), in every `st`: the session registers zeroed, `st` UNINIT. -/
def Obligations.AbortPerformed : Prop :=
  ∀ s : State,
    Answers (.abort 0 []) s .uninit Session.reset (okResponse 0x06 false .uninit [])

/-- POLY_FINAL with a partial block is the internal fault, not a tag (R163, R164): FINISH faults in a live state
whose `pn` is not `dataLength mod 16`. -/
def Obligations.FinishFaultsOnPartialBlock : Prop :=
  ∀ s : State, Live s → s.session.auth.pn.val ≠ s.session.dataLength.toNat % 16 →
    exec (.finish 0 []) s = .fault .polyTail

/-! ## Frames -/

/-- No command touches the parser's registers, `rst`, the offered words or `rsp_ready` (R36, R262), and none drops or
reorders a response word (R311): what has moved has moved, and its own words come after those on their way. A held-back
command word is kept only while the core is stalled (log entry 4). -/
def Obligations.EveryCommandFrame : Prop :=
  ∀ (i : Instr) (s t : State), exec i s = .next t →
    t.parser = s.parser ∧ t.ports.rst = s.ports.rst ∧ t.ports.cmdIn = s.ports.cmdIn ∧
    t.ports.rspReady = s.ports.rspReady ∧ t.ports.rspMoved = s.ports.rspMoved ∧
    (∃ ws, t.ports.rspOut = s.ports.rspOut ++ ws) ∧
    (t.ports.cmdLast = none ∨
      (t.ports.cmdLast = s.ports.cmdLast ∧ s.ports.rspReady = false ∧ Config.rspBufWords < t.ports.rspOut.length))

/-- ENCRYPT and DECRYPT change no constant, key or nonce word but the carry into word 13, nor `r`, `s` and
`authLength` (R36). -/
def Obligations.DataCommandFrame : Prop :=
  ∀ (i : Instr) (s t : State), (∃ r p, i = .encrypt r p ∨ i = .decrypt r p) → exec i s = .next t →
    t.session.auth.r = s.session.auth.r ∧ t.session.auth.s = s.session.auth.s ∧
    t.session.authLength = s.session.authLength ∧
    ∀ j : Fin 16, j ≠ 12 → j ≠ 13 → t.session.cipher.cs[j] = s.session.cipher.cs[j]

/-- Whole machine (R22, R33): no command but INIT puts a new value into a constant, key or nonce word other than
the counter's two: the words stay or are all zeroed. -/
def Obligations.OnlyInitLoadsTheKey : Prop :=
  ∀ (i : Instr) (s t : State), (∀ r p, i ≠ .init r p) → exec i s = .next t →
    t.session = Session.reset ∨
    ∀ j : Fin 16, j ≠ 12 → j ≠ 13 → t.session.cipher.cs[j] = s.session.cipher.cs[j]

/-- TAGCMP changes no register in any form, performed or not (R215, R262). -/
def Obligations.TagcmpFrame : Prop :=
  ∀ (r : BitVec 24) (p : List Byte) (s t : State), exec (.tagcmp r p) s = .next t →
    t.st = s.st ∧ t.session = s.session ∧ t.parser = s.parser

/-- Fail closed for secrets (R35, R263): with equal `st` and equal ports, the new `st`, the number of response words and
the three header words (status word and RLEN) do not depend on the session registers, and for INIT, TAGCMP and ABORT
nothing at the ports does. -/
def Obligations.HeaderWordsHideTheSession : Prop :=
  ∀ (i : Instr) (s1 s2 t1 t2 : State), s1.st = s2.st → s1.ports = s2.ports →
    exec i s1 = .next t1 → exec i s2 = .next t2 →
    t1.st = t2.st ∧ (responses t1).length = (responses t2).length ∧
    ((responses t1).drop (responses s1).length).take 3 = ((responses t2).drop (responses s2).length).take 3 ∧
    ((∀ r p, i ≠ .encrypt r p ∧ i ≠ .decrypt r p ∧ i ≠ .finish r p) → t1.ports = t2.ports)

/-! ## The keystream generator -/

/-- R120: the four constant words are "expand 32-byte k" packed little-endian. -/
def Obligations.ConstantWords : Prop :=
  (∀ i : Fin 4, constWord i.val =
    le32 ("expand 32-byte k".toList.map fun c => BitVec.ofNat 8 c.toNat) (4 * i.val)) ∧
  constWord 0 = 0x61707865 ∧ constWord 1 = 0x3320646e ∧ constWord 2 = 0x79622d32 ∧ constWord 3 = 0x6b206574

/-- R121: SC_INIT loads the constants, the key words, a zero counter and the nonce words, each little-endian; it sets
`ko` to 64 and does not write `ks`. -/
def Obligations.ScInitLayout : Prop :=
  ∀ (key nonce : List Byte) (c : StreamCipher), key.length = 32 → nonce.length = 12 →
    (∀ i : Fin 4, (scInit key nonce c).cs[i.val] = constWord i.val) ∧
    (∀ i : Fin 8, ((scInit key nonce c).cs[4 + i.val]).toNat =
      (key.getD (4 * i.val) 0).toNat + 2 ^ 8 * (key.getD (4 * i.val + 1) 0).toNat +
      2 ^ 16 * (key.getD (4 * i.val + 2) 0).toNat + 2 ^ 24 * (key.getD (4 * i.val + 3) 0).toNat) ∧
    (scInit key nonce c).cs[12] = 0 ∧
    (∀ i : Fin 3, ((scInit key nonce c).cs[13 + i.val]).toNat =
      (nonce.getD (4 * i.val) 0).toNat + 2 ^ 8 * (nonce.getD (4 * i.val + 1) 0).toNat +
      2 ^ 16 * (nonce.getD (4 * i.val + 2) 0).toNat + 2 ^ 24 * (nonce.getD (4 * i.val + 3) 0).toNat) ∧
    (scInit key nonce c).ko.val = 64 ∧ (scInit key nonce c).ks = c.ks

/-- R124: on distinct indices QUARTERROUND is the source's eight assignments to the working array, in order. -/
def Obligations.QuarterRoundInPlace : Prop :=
  ∀ (a b c d : Fin 16) (x x1 x2 x3 x4 x5 x6 x7 x8 : Vector Word 16), [a, b, c, d].Nodup →
    x1 = x.set a (x[a] + x[b]) → x2 = x1.set d ((x1[d] ^^^ x1[a]).rotateLeft 16) →
    x3 = x2.set c (x2[c] + x2[d]) → x4 = x3.set b ((x3[b] ^^^ x3[c]).rotateLeft 12) →
    x5 = x4.set a (x4[a] + x4[b]) → x6 = x5.set d ((x5[d] ^^^ x5[a]).rotateLeft 8) →
    x7 = x6.set c (x6[c] + x6[d]) → x8 = x7.set b ((x7[b] ^^^ x7[c]).rotateLeft 7) →
    quarterRound a b c d x = x8

/-- The four column quarter-rounds may run in any order, and so may the four diagonal ones (the spec marks R126 as
derived): quarter-rounds on disjoint words commute. -/
def Obligations.DisjointQuarterRoundsCommute : Prop :=
  ∀ (a b c d e f g h : Fin 16) (x : Vector Word 16), [a, b, c, d, e, f, g, h].Nodup →
    quarterRound a b c d (quarterRound e f g h x) = quarterRound e f g h (quarterRound a b c d x)

/-- R127 with R125: BLOCK of every state. With `x` the array after ten repetitions of the eight QUARTERROUNDs of R125,
byte `i` of the block is byte `i mod 4` of `x[i/4] + cs[i/4]`, little-endian. The corner case: an all-zero state gives
64 zero bytes. -/
def Obligations.BlockOfEveryState : Prop :=
  (∀ cs : Vector Word 16,
    let x := (List.range 10).foldl (fun x _ =>
      ([(0, 4, 8, 12), (1, 5, 9, 13), (2, 6, 10, 14), (3, 7, 11, 15),
        (0, 5, 10, 15), (1, 6, 11, 12), (2, 7, 8, 13), (3, 4, 9, 14)] : List (Fin 16 × Fin 16 × Fin 16 × Fin 16)).foldl
        (fun x q => quarterRound q.1 q.2.1 q.2.2.1 q.2.2.2 x) x) cs
    ∀ (w : Fin 16) (k : Fin 4),
      (block cs)[4 * w.val + k.val] = (x[w] + cs[w]).extractLsb' (8 * k.val) 8) ∧
  ∀ i : Fin 64, (block (Vector.replicate 16 0))[i] = 0

/-- R128: CTR_INC adds one to the 64-bit counter in words 12 (low) and 13 (high), modulo 2^64, and changes no other
word. -/
def Obligations.CounterIncrement : Prop :=
  ∀ cs : Vector Word 16,
    ((ctrInc cs)[12].toNat + 2 ^ 32 * (ctrInc cs)[13].toNat) = (cs[12].toNat + 2 ^ 32 * cs[13].toNat + 1) % 2 ^ 64 ∧
    ∀ j : Fin 16, j ≠ 12 → j ≠ 13 → (ctrInc cs)[j] = cs[j]

/-- R130 with R129: a buffered byte is used as it is; with the buffer used up, one block is made with the counter
before its increment and its byte 0 is used. -/
def Obligations.ApplyByteIsLazy : Prop :=
  ∀ (b : Byte) (c : StreamCipher),
    (∀ h : c.ko.val < 64, (applyByte b c).1 = b ^^^ c.ks[c.ko.val] ∧ (applyByte b c).2.ko.val = c.ko.val + 1 ∧
      (applyByte b c).2.cs = c.cs ∧ (applyByte b c).2.ks = c.ks) ∧
    (c.ko.val = 64 → (applyByte b c).1 = b ^^^ (block c.cs)[0] ∧ (applyByte b c).2.ko.val = 1 ∧
      (applyByte b c).2.cs = ctrInc c.cs ∧ (applyByte b c).2.ks = block c.cs)

/-- After APPLY of `n` bytes, how many blocks were made and where the cursor stands (R38, which the spec marks as
derived, at any counter value as R133 asks). -/
def Obligations.ApplyCountsBlocks : Prop :=
  ∀ (data : List Byte) (c : StreamCipher), 0 < c.ko.val →
    (apply data c).2.cs = wordsAfter ((c.ko.val + data.length - 1) / 64) c.cs ∧
    (apply data c).2.ko.val = (c.ko.val + data.length - 1) % 64 + 1 ∧
    (apply data c).1.length = data.length

/-- The keystream as a function of the byte position (R132, which the spec marks as derived): from a used-up buffer,
byte `j` of the data meets byte `j mod 64` of block `j / 64`, however the bytes are grouped. -/
def Obligations.KeystreamByPosition : Prop :=
  ∀ (chunks : List (List Byte)) (c : StreamCipher), c.ko.val = 64 →
    (chunks.foldl (fun (a : List Byte × StreamCipher) d => (a.1 ++ (apply d a.2).1, (apply d a.2).2)) ([], c)).1 =
      xorKeystream c.cs 0 chunks.flatten

/-! ## The authenticator -/

/-- R160: `r` is the first 16 bytes, little-endian, with the top 4 bits of bytes 3, 7, 11 and 15 and the low 2 bits
of bytes 4, 8 and 12 cleared; `s` is the last 16 bytes; `h` and `pn` are 0. -/
def Obligations.PolyInitClamps : Prop :=
  ∀ (otk : List Byte) (a : AuthAccumulator), otk.length = 32 →
    (∀ i : Fin 128, (polyInit otk a).r.getLsbD i.val =
      ((otk.getD (i.val / 8) 0).getLsbD (i.val % 8) &&
        !decide ((i.val / 8) % 4 = 3 ∧ 4 ≤ i.val % 8 ∨ (i.val / 8) % 4 = 0 ∧ 0 < i.val / 8 ∧ i.val % 8 < 2))) ∧
    (∀ i : Fin 128, (polyInit otk a).s.getLsbD i.val = (otk.getD (16 + i.val / 8) 0).getLsbD (i.val % 8)) ∧
    (polyInit otk a).h = 0 ∧ (polyInit otk a).pn.val = 0

/-- R161 with R162: absorbing whole blocks, from no partial block, is block by block
`h <- ((h + LE_16(m) + 2^128) * r) mod p`; no partial block is left, and `r` and `s` do not change. -/
def Obligations.WholeBlocksAbsorbed : Prop :=
  ∀ (data : List Byte) (a : AuthAccumulator), a.pn.val = 0 → data.length % 16 = 0 →
    (polyUpdate data a).h = polyBlocks a.r (data.length / 16) data a.h ∧ (polyUpdate data a).pn.val = 0 ∧
    (polyUpdate data a).r = a.r ∧ (polyUpdate data a).s = a.s

/-- R161: how many bytes wait in the partial block after any data, which bytes they are, and that `h` is a residue
in `[0, p)` whenever it was one (R165). -/
def Obligations.PartialBlockKept : Prop :=
  ∀ (data : List Byte) (a : AuthAccumulator),
    (polyUpdate data a).pn.val = (a.pn.val + data.length) % 16 ∧
    (a.pn.val = 0 → ∀ j, j < data.length % 16 →
      (polyUpdate data a).pb.toList.getD j 0 = data.getD (data.length - data.length % 16 + j) 0) ∧
    (a.h < 2 ^ 130 - 5 → (polyUpdate data a).h < 2 ^ 130 - 5)

/-- R163: with no partial block the tag is the 16 bytes of `(h mod p + s) mod 2^128`, little-endian; with one there
is no tag. -/
def Obligations.PolyFinalTag : Prop :=
  ∀ a : AuthAccumulator,
    (a.pn.val = 0 → ∃ tag, polyFinal a = some tag ∧ tag.length = 16 ∧
      leNat tag = (a.h % (2 ^ 130 - 5) + a.s.toNat) % 2 ^ 128) ∧
    (a.pn.val ≠ 0 → polyFinal a = none)

/-! ## Invariants of every step -/

/-- The invariant holds right after reset (R39 against R38). -/
def Obligations.ResetMeetsTheInvariant : Prop := CoreInv State.reset

/-- Every step keeps the invariant: the register relations of R38 in each `st`, the parser's bookkeeping (R81) and
the streams' limits (R300, R311, with log entry 4's held-back word). The spec marks R38 as derived. -/
def Obligations.StepKeepsTheInvariant : Prop :=
  ∀ s t : State, CoreInv s → step s = .next t → CoreInv t

/-- What the host does at the ports keeps the invariant: the registers and the parser meet R38 and R81, no response word
is on its way while `rst` is 1 (R300, R301), and a command word is held back only while the core is stalled (R311). That
the host acts in these ways between steps is the model's choice (log entry 2, DESIGN CHOICE; reset, releasing it and
withdrawing words during it also log entry 7, DEDUCED), and so is the held-back word (log entry 4, DESIGN CHOICE). -/
def Obligations.HostActsKeepTheInvariant : Prop :=
  ∀ (s : State) (ws : List Word) (n : Nat) (b : Bool), CoreInv s →
    CoreInv (offerWords ws s) ∧ CoreInv (readWords n s) ∧ CoreInv (setRspReady b s) ∧ CoreInv (withdrawWords s) ∧
    CoreInv (assertReset s) ∧ CoreInv (releaseReset s)

/-- The internal fault of R164 and R266 is reached from no state the rules allow, and no command is refused: a
step answers a next state or waits for the host. -/
def Obligations.StepNeverLeavesTheRules : Prop :=
  ∀ s : State, CoreInv s → safeAnswer (step s) = true

/-- Whole machine: how one step may change `st` (R20, R264). A session's direction, once fixed, lasts until
FINISH or ABORT (R21, R219). -/
def Obligations.SessionStateMoves : Prop :=
  ∀ s t : State, s.ports.rst = false → step s = .next t →
    t.st = s.st ∨ t.st = .uninit ∨
    ((s.st = .uninit ∨ s.st = .finished) ∧ t.st = .initialized) ∨
    (s.st = .initialized ∧ (t.st = .authEnc ∨ t.st = .authDec)) ∨
    (Live s ∧ t.st = .finished)

/-! ## Sessions -/

/-- How the data of a session is cut into ENCRYPT commands changes neither the session registers nor the bytes
emitted (R132 and R167, which the spec marks as derived). -/
def Obligations.ChunkingDoesNotMatter : Prop :=
  ∀ (chunks : List (List Byte)) (s t u : State), chunks ≠ [] →
    execAll (chunks.map (.encrypt 0)) s = some t → exec (.encrypt 0 chunks.flatten) s = .next u →
    (s.st = .initialized ∨ s.st = .authEnc) →
    t.st = u.st ∧ t.session = u.session ∧
    ∃ data, data.length = chunks.flatten.length ∧
      responses u = responses s ++ okResponse 0x02 false .authEnc data ∧
      responses t = responses s ++ dataResponses 0x02 .authEnc (cutLike chunks data)

/-- The AEAD function of an encrypting session (R222, which the spec marks as derived): for every key, nonce, AAD and
data in any chunks, INIT, the ENCRYPTs and FINISH emit `X XOR KS` and the tag over AAD and ciphertext, and leave
the session zeroed. -/
def Obligations.SealSession : Prop :=
  ∀ (key nonce aad : List Byte) (chunks : List (List Byte)) (s : State),
    key.length = 32 → nonce.length = 12 → (s.st = .uninit ∨ s.st = .finished) →
    ∃ t, execAll (.init 0 (key ++ nonce ++ aad) :: chunks.map (.encrypt 0) ++ [.finish 0 []]) s = some t ∧
      t.st = .finished ∧ t.session = Session.reset ∧
      responses t = responses s ++ okResponse 0x01 false .initialized [] ++
        dataResponses 0x02 .authEnc (cutLike chunks (aeadData key nonce chunks.flatten)) ++
        okResponse 0x04 false .finished (aeadTag key nonce aad (aeadData key nonce chunks.flatten))

/-- The AEAD function of a decrypting session (R222, which the spec marks as derived): the tag covers the payload as
it arrived. -/
def Obligations.OpenSession : Prop :=
  ∀ (key nonce aad : List Byte) (chunks : List (List Byte)) (s : State),
    key.length = 32 → nonce.length = 12 → (s.st = .uninit ∨ s.st = .finished) →
    ∃ t, execAll (.init 0 (key ++ nonce ++ aad) :: chunks.map (.decrypt 0) ++ [.finish 0 []]) s = some t ∧
      t.st = .finished ∧ t.session = Session.reset ∧
      responses t = responses s ++ okResponse 0x01 false .initialized [] ++
        dataResponses 0x03 .authDec (cutLike chunks (aeadData key nonce chunks.flatten)) ++
        okResponse 0x04 false .finished (aeadTag key nonce aad chunks.flatten)

/-- Round trip (R223, which the spec marks as derived): decrypting what a session encrypted, under the same key,
nonce and AAD, emits the plaintext and the same tag. -/
def Obligations.RoundTrip : Prop :=
  ∀ (key nonce aad pt : List Byte) (s : State),
    key.length = 32 → nonce.length = 12 → (s.st = .uninit ∨ s.st = .finished) →
    ∃ (ct tag : List Byte) (t1 t2 : State), ct.length = pt.length ∧
      execAll [.init 0 (key ++ nonce ++ aad), .encrypt 0 pt, .finish 0 []] s = some t1 ∧
      responses t1 = responses s ++ okResponse 0x01 false .initialized [] ++ okResponse 0x02 false .authEnc ct ++
        okResponse 0x04 false .finished tag ∧
      execAll [.init 0 (key ++ nonce ++ aad), .decrypt 0 ct, .finish 0 []] s = some t2 ∧
      responses t2 = responses s ++ okResponse 0x01 false .initialized [] ++ okResponse 0x03 false .authDec pt ++
        okResponse 0x04 false .finished tag

/-! ## Several instances -/

/-- R15 and R274: a step of one instance reads and changes no other instance. Every other instance stays as it was, in
any system with the same instance `k` that instance steps alike, and steps of two instances can be taken in either order.
That instances are a list which steps one at a time is the model's choice (log entry 16, DEDUCED). -/
def Obligations.InstancesAreIndependent : Prop :=
  ∀ (j k : Nat) (y z : System), j ≠ k → y.stepAt k = some z →
    z.instances[j]? = y.instances[j]? ∧ z.instances.length = y.instances.length ∧
    (∀ x : System, x.instances[k]? = y.instances[k]? →
      ∃ u, x.stepAt k = some u ∧ u.instances[k]? = z.instances[k]?) ∧
    ∀ w, y.stepAt j = some w → ∃ v, z.stepAt j = some v ∧ w.stepAt k = some v

/-! ## The assembler -/

/-- R96: each mnemonic assembles to one frame, the one the decoder reads back with `RSVD = 0` and the operand bytes
as its payload. -/
def Obligations.MnemonicsAssembleToTheirFrame : Prop :=
  ∀ (key nonce aad data t1 t2 : List Byte), key.length = 32 → nonce.length = 12 → t1.length = 16 → t2.length = 16 →
    44 + aad.length < 2 ^ 64 → data.length < 2 ^ 64 →
    assemble (.init key nonce aad) = some (encode (.init 0 (key ++ nonce ++ aad))) ∧
    assemble (.encrypt data) = some (encode (.encrypt 0 data)) ∧
    assemble (.decrypt data) = some (encode (.decrypt 0 data)) ∧
    assemble .finish = some [4, 0, 0] ∧
    assemble (.tagcmp t1 t2) = some (encode (.tagcmp 0 (t1 ++ t2))) ∧
    assemble .abort = some [6, 0, 0]

/-- Disassembling a stream of encoded commands and assembling the lines again gives the same words, whatever the
commands' reserved bits and lengths (R96, R98). -/
def Obligations.DisassemblyReassembles : Prop :=
  ∀ is : List Instr, (∀ i ∈ is, i.wellFormed = true) →
    assembleAll (disassemble (is.flatMap encode)) = some (is.flatMap encode)

/-! ## The response stream -/

/-- The response stream (R80, R311). `rsp_valid` is 1 exactly when response words are on their way, and `rsp_data` is the
oldest, whatever `RSP_BUF_WORDS` is. A host that reads `k` words takes the `k` oldest, none is dropped or reordered, no
register changes, and the core is freed exactly when no more words are left than it can hold; then it accepts the word it
held back. A reading host takes all that is on its way, with or without further command words. That the words a command
leaves are kept for later reads and steps is the model's choice (log entries 2 and 4, DESIGN CHOICE). -/
def Obligations.ReadingFreesTheCore : Prop :=
  ∀ s : State, s.ports.rst = false →
    (rspValid s = true ↔ s.ports.rspOut ≠ []) ∧
    (∀ w ws, s.ports.rspOut = w :: ws → rspData s = some w) ∧
    (∀ k, (readWords k s).ports.rspMoved = s.ports.rspMoved ++ s.ports.rspOut.take k ∧
      (readWords k s).ports.rspOut = s.ports.rspOut.drop k ∧ responses (readWords k s) = responses s ∧
      (readWords k s).st = s.st ∧ (readWords k s).session = s.session ∧ (readWords k s).parser = s.parser ∧
      (s.ports.rspReady = false →
        (step (readWords k s) = .fault .responseStall ↔ Config.rspBufWords < s.ports.rspOut.length - k)) ∧
      (cmdReady (readWords k s) = true → (readWords k s).ports.cmdLast = none)) ∧
    (s.ports.cmdIn = [] → s.ports.rspReady = true → s.ports.rspOut ≠ [] →
      ∃ t, step s = .next t ∧ t.st = s.st ∧ t.session = s.session ∧ t.parser = s.parser ∧
        t.ports.rspMoved = responses s ∧ t.ports.rspOut = [])
end

