-- ==== Sys2Proof/Laws/Bytes.lean ====
section
/-! SUPPORT. Laws of Machine/Bytes.lean: little-endian numbers and packed words. -/

namespace Sys2Proof.Laws

@[simp] theorem length_toLE (n v : Nat) : (toLE n v).length = n := by
  induction n generalizing v with
  | zero => rfl
  | succ n ih => simp [toLE, ih]

@[simp] theorem length_zeros (n : Nat) : (zeros n).length = n := by simp [zeros]

@[simp] theorem length_lanes (w : Word) : (lanes w).length = 4 := by simp [lanes]

theorem wordCount_lt {n : Nat} (h : n < 2 ^ 64) : wordCount n < 2 ^ 64 := by simp only [wordCount]; omega

/-- `LE_n(toLE_n(v))` is `v` modulo `2^(8n)`. -/
theorem leNat_toLE (n v : Nat) : leNat (toLE n v) = v % 2 ^ (8 * n) := by
  induction n generalizing v with
  | zero => simp [toLE, leNat, Nat.mod_one]
  | succ n ih =>
    simp only [toLE, leNat, ih, BitVec.toNat_ofNat]
    rw [show 8 * (n + 1) = 8 + 8 * n by ring, Nat.pow_add, Nat.mod_mul]

theorem leNat_lt (b : List Byte) : leNat b < 2 ^ (8 * b.length) := by
  induction b with
  | nil => simp [leNat]
  | cons x b ih =>
    simp only [leNat, List.length_cons]
    rw [show 8 * (b.length + 1) = 8 + 8 * b.length by ring, Nat.pow_add]
    have := x.isLt
    omega

/-- `toLE_n(LE_n(b))` is `b`. -/
theorem toLE_leNat (b : List Byte) : toLE b.length (leNat b) = b := by
  induction b with
  | nil => rfl
  | cons x b ih =>
    simp only [List.length_cons, toLE, leNat]
    have := x.isLt
    rw [show (x.toNat + 256 * leNat b) / 256 = leNat b by omega, ih]
    congr 1
    apply BitVec.eq_of_toNat_eq
    simp; omega

theorem toLE_mod (n v : Nat) : toLE n (v % 2 ^ (8 * n)) = toLE n v := by
  have h := toLE_leNat (toLE n v)
  rwa [length_toLE, leNat_toLE] at h

theorem leNat_append (a b : List Byte) : leNat (a ++ b) = leNat a + 2 ^ (8 * a.length) * leNat b := by
  induction a with
  | nil => simp [leNat]
  | cons x a ih =>
    simp only [List.cons_append, leNat, ih, List.length_cons]
    rw [show 8 * (a.length + 1) = 8 + 8 * a.length by ring, Nat.pow_add]
    ring

@[simp] theorem leNat_zeros (n : Nat) : leNat (zeros n) = 0 := by
  induction n with
  | zero => rfl
  | succ n ih => simpa [zeros, List.replicate_succ, leNat] using ih

theorem wordOfLanes_zeros (b : List Byte) (k : Nat) : wordOfLanes (b ++ zeros k) = wordOfLanes b := by
  simp [wordOfLanes, leNat_append]

/-- A word of at most four lanes gives them back, with zeros above. -/
theorem lanes_wordOfLanes (b : List Byte) (h : b.length ≤ 4) :
    lanes (wordOfLanes b) = b ++ zeros (4 - b.length) := by
  have e : leNat b = leNat (b ++ zeros (4 - b.length)) := by simp [leNat_append]
  have l : leNat b < 2 ^ 32 := lt_of_lt_of_le (leNat_lt b) (Nat.pow_le_pow_right (by decide) (by omega))
  rw [lanes, wordOfLanes, BitVec.toNat_ofNat, Nat.mod_eq_of_lt l, e]
  have := toLE_leNat (b ++ zeros (4 - b.length))
  rwa [show (b ++ zeros (4 - b.length)).length = 4 by simp; omega] at this

theorem length_packWords (b : List Byte) : (packWords b).length = wordCount b.length := by
  fun_induction packWords b <;> simp_all [wordCount]; omega

/-- Packing then reading all lanes gives the bytes back, padded with zeros to whole words. -/
theorem laneBytes_packWords (b : List Byte) :
    laneBytes (packWords b) = b ++ zeros (4 * wordCount b.length - b.length) := by
  fun_induction packWords b with
  | case1 => rfl
  | case2 | case3 | case4 => simp [laneBytes, lanes_wordOfLanes, wordCount]
  | case5 a b c d rest ih =>
    simp only [laneBytes, List.flatMap_cons] at ih ⊢
    rw [ih, lanes_wordOfLanes _ (by simp)]
    simp [wordCount, zeros]
    omega

theorem length_laneBytes (ws : List Word) : (laneBytes ws).length = 4 * ws.length := by
  induction ws with
  | nil => rfl
  | cons w ws ih =>
    simp only [laneBytes, List.flatMap_cons, List.length_append, length_lanes, List.length_cons] at *; omega

/-- Zero bytes up to the next word boundary change no packed word. -/
theorem packWords_zeros (b : List Byte) : packWords (b ++ zeros (4 * wordCount b.length - b.length)) = packWords b := by
  fun_induction packWords b with
  | case1 => rfl
  | case2 a =>
    rw [show 4 * wordCount [a].length - [a].length = 3 from by simp [wordCount]]
    exact congrArg (fun w => [w]) (wordOfLanes_zeros [a] 3)
  | case3 a b =>
    rw [show 4 * wordCount [a, b].length - [a, b].length = 2 from by simp [wordCount]]
    exact congrArg (fun w => [w]) (wordOfLanes_zeros [a, b] 2)
  | case4 a b c =>
    rw [show 4 * wordCount [a, b, c].length - [a, b, c].length = 1 from by simp [wordCount]]
    exact congrArg (fun w => [w]) (wordOfLanes_zeros [a, b, c] 1)
  | case5 a b c d rest ih =>
    have : 4 * wordCount (a :: b :: c :: d :: rest).length - (a :: b :: c :: d :: rest).length =
        4 * wordCount rest.length - rest.length := by
      simp [wordCount]; omega
    rw [this, List.cons_append, List.cons_append, List.cons_append, List.cons_append, packWords, ih]

/-- Lane `k` of a word is its bits `8*k+7 .. 8*k`. -/
theorem getD_lanes (w : Word) (k : Nat) (h : k < 4) : w.extractLsb' (8 * k) 8 = (lanes w).getD k 0 := by
  have : k = 0 ∨ k = 1 ∨ k = 2 ∨ k = 3 := by omega
  rcases this with rfl | rfl | rfl | rfl <;>
    (apply BitVec.eq_of_toNat_eq
     simp [lanes, toLE, BitVec.extractLsb'_toNat, Nat.shiftRight_eq_div_pow]) <;> omega

theorem getD_laneBytes (ws : List Word) (i : Nat) (h : i < 4 * ws.length) :
    (ws.getD (i / 4) 0).extractLsb' (8 * (i % 4)) 8 = (laneBytes ws).getD i 0 := by
  induction ws generalizing i with
  | nil => simp at h
  | cons w ws ih =>
    simp only [laneBytes, List.flatMap_cons] at ih ⊢
    by_cases h4 : i < 4
    · rw [List.getD_append _ _ _ _ (by simpa using h4), ← getD_lanes _ _ h4, Nat.mod_eq_of_lt h4,
        Nat.div_eq_of_lt h4]; rfl
    · rw [List.getD_append_right _ _ _ _ (by simpa using h4), length_lanes, ← ih (i - 4) (by simp at h; omega)]
      rw [show i / 4 = (i - 4) / 4 + 1 by omega, show i % 4 = (i - 4) % 4 by omega]
      simp

end Sys2Proof.Laws
end

