-- ==== Sys2Proof/Laws/Auth.lean ====
section
/-! SUPPORT. Laws of the Poly1305 unit and the comparator (Machine/Authenticator.lean). -/

namespace Sys2Proof.Laws

open Sys2Proof.Machine

/-! One byte -/

theorem polyByte_pn (a : AuthAccumulator) (b : Byte) : (polyByte a b).pn.val = (a.pn.val + 1) % 16 := by
  have := a.pn.isLt
  unfold polyByte; split
  · simp; omega
  · simp [polyBlock]; omega

@[simp] theorem polyByte_r (a : AuthAccumulator) (b : Byte) : (polyByte a b).r = a.r := by
  unfold polyByte; split <;> rfl

@[simp] theorem polyByte_s (a : AuthAccumulator) (b : Byte) : (polyByte a b).s = a.s := by
  unfold polyByte; split <;> rfl

theorem polyByte_pb (a : AuthAccumulator) (b : Byte) : (polyByte a b).pb = a.pb.set a.pn b := by
  unfold polyByte; split <;> rfl

theorem polyByte_h (a : AuthAccumulator) (b : Byte) : (polyByte a b).h =
    if a.pn.val + 1 < 16 then a.h else absorbValue a.r a.h (a.pb.set a.pn b).toList := by
  unfold polyByte; split <;> rfl

theorem absorbValue_lt (r : BitVec 128) (h : Nat) (m : List Byte) : absorbValue r h m < polyP :=
  Nat.mod_lt _ (by decide)

/-! A byte sequence -/

@[simp] theorem polyUpdate_nil (a : AuthAccumulator) : polyUpdate [] a = a := rfl

theorem polyUpdate_cons (b : Byte) (d : List Byte) (a : AuthAccumulator) :
    polyUpdate (b :: d) a = polyUpdate d (polyByte a b) := rfl

theorem polyUpdate_snoc (b : Byte) (d : List Byte) (a : AuthAccumulator) :
    polyUpdate (d ++ [b]) a = polyByte (polyUpdate d a) b := by simp [polyUpdate]

/-- How data is cut into POLY_UPDATEs does not matter. -/
theorem polyUpdate_append (x y : List Byte) (a : AuthAccumulator) :
    polyUpdate (x ++ y) a = polyUpdate y (polyUpdate x a) := by simp [polyUpdate]

theorem polyUpdate_pn (d : List Byte) (a : AuthAccumulator) :
    (polyUpdate d a).pn.val = (a.pn.val + d.length) % 16 := by
  induction d generalizing a with
  | nil => have := a.pn.isLt; simp; omega
  | cons b d ih => rw [polyUpdate_cons, ih, polyByte_pn, List.length_cons]; omega

@[simp] theorem polyUpdate_r (d : List Byte) (a : AuthAccumulator) : (polyUpdate d a).r = a.r := by
  induction d generalizing a with
  | nil => rfl
  | cons b d ih => rw [polyUpdate_cons, ih, polyByte_r]

@[simp] theorem polyUpdate_s (d : List Byte) (a : AuthAccumulator) : (polyUpdate d a).s = a.s := by
  induction d generalizing a with
  | nil => rfl
  | cons b d ih => rw [polyUpdate_cons, ih, polyByte_s]

theorem polyUpdate_lt (d : List Byte) (a : AuthAccumulator) (h : a.h < polyP) : (polyUpdate d a).h < polyP := by
  induction d generalizing a with
  | nil => exact h
  | cons b d ih =>
    rw [polyUpdate_cons]; apply ih; rw [polyByte_h]; split
    · exact h
    · exact absorbValue_lt _ _ _

/-- Fewer than 16 bytes, from no partial block: they wait in `pb`. -/
theorem polyUpdate_part (d : List Byte) (a : AuthAccumulator) (h0 : a.pn.val = 0) (h : d.length < 16) :
    (polyUpdate d a).h = a.h ∧ ∀ j, j < d.length → (polyUpdate d a).pb.toList.getD j 0 = d.getD j 0 := by
  induction d using List.reverseRecOn with
  | nil => exact ⟨rfl, by simp⟩
  | append_singleton d b ih =>
    simp at h
    obtain ⟨i1, i2⟩ := ih (by omega)
    have hp : (polyUpdate d a).pn.val = d.length := by rw [polyUpdate_pn]; omega
    rw [polyUpdate_snoc]
    refine ⟨by rw [polyByte_h, if_pos (by omega), i1], fun j hj => ?_⟩
    rw [polyByte_pb]
    simp only [List.length_append, List.length_singleton] at hj
    have hj' : j < 16 := by omega
    rw [List.getD_eq_getElem _ _ (by simpa using hj'), Vector.getElem_toList]
    simp only [Vector.getElem_set, hp]
    by_cases e : d.length = j
    · subst e; simp
    · rw [if_neg e, List.getD_append _ _ _ _ (by omega), ← i2 j (by omega),
        List.getD_eq_getElem _ _ (by simpa using hj'), Vector.getElem_toList]

/-- Sixteen bytes, from no partial block: one block is absorbed. -/
theorem polyUpdate_block (m : List Byte) (a : AuthAccumulator) (h0 : a.pn.val = 0) (h : m.length = 16) :
    (polyUpdate m a).h = absorbValue a.r a.h m := by
  obtain ⟨d, b, rfl⟩ : ∃ d b, m = d ++ [b] := by
    rcases List.eq_nil_or_concat m with rfl | ⟨d, b, rfl⟩
    · simp at h
    · exact ⟨d, b, by simp⟩
  simp at h
  have hp : (polyUpdate d a).pn.val = d.length := by rw [polyUpdate_pn]; omega
  obtain ⟨i1, i2⟩ := polyUpdate_part d a h0 (by omega)
  rw [polyUpdate_snoc, polyByte_h, if_neg (by omega), i1, polyUpdate_r]
  congr 1
  apply List.ext_getElem
  · simp [h]
  · intro j h1 h2
    rw [Vector.getElem_toList]
    simp only [Vector.getElem_set, hp]
    by_cases e : d.length = j
    · subst e; simp
    · simp at h2
      rw [if_neg e, List.getElem_append_left (by omega)]
      have := i2 j (by omega)
      rw [List.getD_eq_getElem _ _ (by simp; omega), List.getD_eq_getElem _ _ (by omega),
        Vector.getElem_toList] at this
      exact this

/-! The comparator (R168) -/

theorem foldl_or_eq_zero (l : List Byte) (x : Byte) : l.foldl (· ||| ·) x = 0 ↔ x = 0 ∧ ∀ y ∈ l, y = 0 := by
  induction l generalizing x with
  | nil => simp
  | cons y l ih =>
    rw [List.foldl_cons, ih]
    have : x ||| y = 0 ↔ x = 0 ∧ y = 0 := BitVec.or_eq_zero_iff
    rw [this]; simp; tauto

/-- CT_EQUAL is equality. -/
theorem ctEqual_eq (a b : List Byte) (h : a.length = b.length) : ctEqual a b = decide (a = b) := by
  simp only [ctEqual, decide_eq_decide, foldl_or_eq_zero, true_and]
  induction a generalizing b with
  | nil => cases b <;> simp_all
  | cons x a ih =>
    cases b with
    | nil => simp at h
    | cons y b =>
      simp only [List.zipWith_cons_cons, List.mem_cons, forall_eq_or_imp, ih b (by simpa using h), List.cons.injEq]
      have : x ^^^ y = 0 ↔ x = y := BitVec.xor_eq_zero_iff
      rw [this]

/-! FINISH's partial block (R166) -/

theorem finishAuth_pn (n : Session) :
    (finishAuth n).pn.val = (n.auth.pn.val + (16 - n.dataLength.toNat % 16)) % 16 := by
  unfold finishAuth
  rw [polyUpdate_pn, polyUpdate_pn]
  simp [lengthBlock, pad16]

end Sys2Proof.Laws
end

