-- ==== Sys2Proof/Laws/Encoding.lean ====
section
/-! SUPPORT. Laws of the frame's fields, of `splitFrame`, of the status word and of the operand layouts. -/

namespace Sys2Proof.Laws

open Sys2Proof.Machine

theorem lenField_lt (a b : Word) : lenField a b < 2 ^ 64 := by
  have := a.isLt; have := b.isLt; simp only [lenField]; omega

/-- LEN from its two header words (R83). -/
theorem lenField_of (n : Nat) (h : n < 2 ^ 64) :
    lenField (BitVec.ofNat 32 n) (BitVec.ofNat 32 (n / 2 ^ 32)) = n := by
  simp only [lenField, BitVec.toNat_ofNat]; omega

@[simp] theorem opcField_hw0Of (o : Byte) (r : BitVec 24) : opcField (hw0Of o r) = o := by
  apply BitVec.eq_of_getLsbD_eq
  intro i hi
  simp [opcField, hw0Of, field, hi]
  grind

@[simp] theorem rsvdField_hw0Of (o : Byte) (r : BitVec 24) : rsvdField (hw0Of o r) = r := by
  apply BitVec.eq_of_getLsbD_eq
  intro i hi
  simp [rsvdField, hw0Of, field, hi]
  grind

/-- The two fields of `hw0` are all of it (R82). -/
theorem hw0Of_fields (w : Word) : hw0Of (opcField w) (rsvdField w) = w := by
  apply BitVec.eq_of_getLsbD_eq
  intro i hi
  simp [opcField, rsvdField, hw0Of, field, hi]
  by_cases h : i < 8
  · simp [h]
  · simp [h, show 8 + (i - 8) = i by omega, BitVec.getLsbD_eq_getElem hi, show i - 8 < 24 by omega]

@[simp] theorem payloadOf_packWords (b : List Byte) : payloadOf b.length (packWords b) = b := by
  simp [payloadOf, laneBytes_packWords]

theorem wellFormed_iff (i : Instr) : i.wellFormed = true ↔ i.payload.length < 2 ^ 64 := by
  simp [Instr.wellFormed, Instr.lenFits]

/-- An instruction the opcode map gives has the fields it was given. -/
theorem instrOf_fields {o : Byte} {r : BitVec 24} {p : List Byte} {i : Instr} (h : instrOf o r p = some i) :
    i.opc = o ∧ i.rsvd = r ∧ i.payload = p := by
  unfold instrOf at h
  split at h <;> simp at h <;> subst h <;> refine ⟨?_, rfl, rfl⟩ <;> apply BitVec.eq_of_toNat_eq <;>
    simp_all [Instr.opc]

/-- What `splitFrame` takes from the front of a word sequence. -/
theorem splitFrame_some {ws : List Word} {f : Frame} {rest : List Word} (h : splitFrame ws = some (f, rest)) :
    ∃ tl, ws = f.hw0 :: f.hw1 :: f.hw2 :: tl ∧ f.pw = tl.take (wordCount f.len) ∧
      rest = tl.drop (wordCount f.len) ∧ wordCount f.len ≤ tl.length := by
  unfold splitFrame at h
  split at h
  · split at h
    · simp at h
    · simp at h; obtain ⟨rfl, rfl⟩ := h
      exact ⟨_, rfl, rfl, rfl, Nat.not_lt.mp ‹¬ _›⟩
  · simp at h

/-- The frame of an encoded command. -/
theorem splitFrame_encode (i : Instr) (rest : List Word) (h : i.wellFormed = true) :
    splitFrame (encode i ++ rest) = some (⟨hw0Of i.opc i.rsvd, BitVec.ofNat 32 i.payload.length,
      BitVec.ofNat 32 (i.payload.length / 2 ^ 32), packWords i.payload⟩, rest) := by
  simp only [encode, frameWords, List.cons_append, splitFrame, lenField_of _ ((wellFormed_iff i).1 h)]
  rw [if_neg (by simp [length_packWords]), List.take_left' (length_packWords _), List.drop_left' (length_packWords _)]

/-- A whole frame with a defined opcode at the front of a word sequence. -/
theorem decode_instr {ws : List Word} {i : Instr} {rest : List Word} (h : decode ws = .instr i rest) :
    ∃ a b c tl, ws = a :: b :: c :: tl ∧ ¬ tl.length < wordCount (lenField b c) ∧
      decodeFrame ⟨a, b, c, tl.take (wordCount (lenField b c))⟩ = some i ∧ rest = tl.drop (wordCount (lenField b c)) := by
  unfold decode splitFrame at h
  grind

/-- A whole frame with a reserved opcode at the front of a word sequence. -/
theorem decode_reserved {ws : List Word} {o : Byte} {rest : List Word} (h : decode ws = .reservedOpcode o rest) :
    ∃ a b c tl, ws = a :: b :: c :: tl ∧ ¬ tl.length < wordCount (lenField b c) ∧
      decodeFrame ⟨a, b, c, tl.take (wordCount (lenField b c))⟩ = none ∧
      rest = tl.drop (wordCount (lenField b c)) ∧ o = opcField a := by
  unfold decode splitFrame at h
  grind

/-- A word sequence that ends inside its first frame. -/
theorem decode_incomplete {ws : List Word} (h : decode ws = .incompleteFrame) :
    ws.length < 3 ∨ ∃ a b c tl, ws = a :: b :: c :: tl ∧ tl.length < wordCount (lenField b c) := by
  unfold decode splitFrame at h
  match ws with
  | [] => simp
  | [_] => simp
  | [_, _] => simp
  | a :: b :: c :: tl =>
    right
    refine ⟨a, b, c, tl, rfl, ?_⟩
    grind

/-- The status word bit by bit (R93). -/
theorem getLsbD_statusWord (opc : Byte) (err : Option ErrCode) (eq : Bool) (st : SessionState) (i : Nat) (h : i < 32) :
    (statusWord opc err eq st).getLsbD i =
      if i < 8 then opc.getLsbD i else if i < 12 then (errField err).getLsbD (i - 8)
      else if i < 13 then eq else if i < 16 then false else if i < 19 then st.code.getLsbD (i - 16) else false := by
  have h1 := BitVec.getLsbD_of_ge opc i
  have h2 := BitVec.getLsbD_of_ge (errField err) (i - 8)
  have h3 := BitVec.getLsbD_of_ge (BitVec.ofBool eq) (i - 12)
  have h4 := BitVec.getLsbD_of_ge st.code (i - 16)
  simp only [statusWord, field, BitVec.getLsbD_or, BitVec.getLsbD_shiftLeft, BitVec.getLsbD_setWidth, h, decide_true,
    Bool.true_and]
  split_ifs with a b c d e
  · simp; grind
  · simp [show ¬ i < 8 by omega, show i < 12 by omega, show i < 16 by omega, h1 (by omega)]; grind
  · obtain rfl : i = 12 := by omega
    simp
  · simp [h1 (by omega), h2 (by omega), h3 (by omega)]; grind
  · simp [h1 (by omega), h2 (by omega), h3 (by omega)]; grind
  · simp [h1 (by omega), h2 (by omega), h3 (by omega), h4 (by omega)]

/-! Operand layouts (R87) -/

theorem keyOf_append (a b c : List Byte) (h : a.length = 32) : keyOf (a ++ b ++ c) = a := by
  simp [keyOf, slice, List.take_left' h]

theorem nonceOf_append (a b c : List Byte) (h : a.length = 32) (h' : b.length = 12) : nonceOf (a ++ b ++ c) = b := by
  rw [List.append_assoc, nonceOf, slice, List.drop_left' h, List.take_left' h']

theorem aadOf_append (a b c : List Byte) (h : a.length = 32) (h' : b.length = 12) : aadOf (a ++ b ++ c) = c := by
  rw [aadOf, List.drop_left' (by simp [h, h'])]

theorem init_operands (p : List Byte) : keyOf p ++ nonceOf p ++ aadOf p = p := by
  have e1 := List.take_append_drop 32 p
  have e2 := List.take_append_drop 12 (p.drop 32)
  rw [List.drop_drop] at e2
  simp only [keyOf, nonceOf, aadOf, slice, List.drop_zero, List.append_assoc]
  rw [show 32 - 0 = 32 from rfl, show 44 - 32 = 12 from rfl, show 44 = 32 + 12 from rfl, e2, e1]

theorem tag1Of_append (a b : List Byte) (h : a.length = 16) : tag1Of (a ++ b) = a := by
  simp [tag1Of, slice, List.take_left' h]

theorem tag2Of_append (a b : List Byte) (h : a.length = 16) (h' : b.length = 16) : tag2Of (a ++ b) = b := by
  simp [tag2Of, slice, List.drop_left' h, h']

theorem tagcmp_operands (p : List Byte) (h : p.length = 32) : tag1Of p ++ tag2Of p = p := by
  have e1 := List.take_append_drop 16 p
  simp only [tag1Of, tag2Of, slice, List.drop_zero]
  rw [show 32 - 16 = 16 from rfl, List.take_of_length_le (l := p.drop 16) (by simp [h])]; exact e1

end Sys2Proof.Laws
end

