-- ==== Sys2Proof/Laws/State.lean ====
section
/-! SUPPORT. One lemma per field per update of the state. -/

namespace Sys2Proof.Laws

open Sys2Proof.Machine

/-! ZEROIZE (R221) -/

@[simp] theorem zeroize_st (s : State) : (zeroize s).st = s.st := rfl
@[simp] theorem zeroize_session (s : State) : (zeroize s).session = Session.reset := rfl
@[simp] theorem zeroize_parser (s : State) : (zeroize s).parser = s.parser := rfl
@[simp] theorem zeroize_ports (s : State) : (zeroize s).ports = s.ports := rfl

/-! The parser and the command stream -/

@[simp] theorem atHeader_ph (p : Parser) : p.atHeader.ph = .hdr0 := rfl
@[simp] theorem atHeader_hw0 (p : Parser) : p.atHeader.hw0 = p.hw0 := rfl
@[simp] theorem atHeader_hw1 (p : Parser) : p.atHeader.hw1 = p.hw1 := rfl
@[simp] theorem atHeader_hw2 (p : Parser) : p.atHeader.hw2 = p.hw2 := rfl
@[simp] theorem atHeader_rem (p : Parser) : p.atHeader.rem = 0 := rfl
@[simp] theorem atHeader_pw (p : Parser) : p.atHeader.pw = [] := rfl

@[simp] theorem afterAccept_st (p : Parser) (l : Option Word) (r : List Word) (s : State) :
    (afterAccept p l r s).st = s.st := rfl
@[simp] theorem afterAccept_session (p : Parser) (l : Option Word) (r : List Word) (s : State) :
    (afterAccept p l r s).session = s.session := rfl
@[simp] theorem afterAccept_parser (p : Parser) (l : Option Word) (r : List Word) (s : State) :
    (afterAccept p l r s).parser = p := rfl
@[simp] theorem afterAccept_ports (p : Parser) (l : Option Word) (r : List Word) (s : State) :
    (afterAccept p l r s).ports = { s.ports.settle with cmdIn := r, cmdLast := l } := rfl

@[simp] theorem placeFrame_st (ws : List Word) (s : State) : (placeFrame ws s).st = s.st := rfl
@[simp] theorem placeFrame_session (ws : List Word) (s : State) : (placeFrame ws s).session = s.session := rfl
@[simp] theorem placeFrame_parser (ws : List Word) (s : State) : (placeFrame ws s).parser = s.parser.atHeader := rfl
@[simp] theorem placeFrame_rst (ws : List Word) (s : State) : (placeFrame ws s).ports.rst = false := rfl
@[simp] theorem placeFrame_cmdIn (ws : List Word) (s : State) :
    (placeFrame ws s).ports.cmdIn = ws ++ s.ports.cmdIn := rfl
@[simp] theorem placeFrame_rspReady (ws : List Word) (s : State) :
    (placeFrame ws s).ports.rspReady = (s.ports.rspReady || s.ports.stalled) := rfl
@[simp] theorem placeFrame_rspOut (ws : List Word) (s : State) :
    (placeFrame ws s).ports.rspOut = s.ports.rspOut := rfl

@[simp] theorem offerWords_st (ws : List Word) (s : State) : (offerWords ws s).st = s.st := rfl
@[simp] theorem offerWords_session (ws : List Word) (s : State) : (offerWords ws s).session = s.session := rfl
@[simp] theorem offerWords_parser (ws : List Word) (s : State) : (offerWords ws s).parser = s.parser := rfl
@[simp] theorem offerWords_ports (ws : List Word) (s : State) :
    (offerWords ws s).ports = { s.ports with cmdIn := s.ports.cmdIn ++ ws } := rfl

/-! Hardware reset (R300, R301) -/

@[simp] theorem hardReset_st (s : State) : (hardReset s).st = .uninit := rfl
@[simp] theorem hardReset_session (s : State) : (hardReset s).session = Session.reset := rfl
@[simp] theorem hardReset_parser (s : State) : (hardReset s).parser = Parser.reset := rfl
@[simp] theorem hardReset_rst (s : State) : (hardReset s).ports.rst = s.ports.rst := rfl
@[simp] theorem hardReset_cmdIn (s : State) : (hardReset s).ports.cmdIn = s.ports.offered := rfl
@[simp] theorem hardReset_cmdLast (s : State) : (hardReset s).ports.cmdLast = none := rfl
@[simp] theorem hardReset_rspOut (s : State) : (hardReset s).ports.rspOut = [] := rfl
@[simp] theorem hardReset_rspMoved (s : State) : (hardReset s).ports.rspMoved = s.ports.rspMoved := rfl
@[simp] theorem hardReset_rspReady (s : State) : (hardReset s).ports.rspReady = s.ports.rspReady := rfl

/-! The response stream (R311) -/

theorem stalled_iff (p : Ports) : p.stalled = true ↔ p.rspReady = false ∧ Config.rspBufWords < p.rspOut.length := by
  unfold Ports.stalled; split <;> simp_all

theorem not_stalled {p : Ports} (h : p.rspReady = true ∨ p.rspOut.length ≤ Config.rspBufWords) : p.stalled = false := by
  rw [← Bool.not_eq_true, stalled_iff]; rcases h with h | h
  · simp [h]
  · omega

@[simp] theorem acceptLast_rst (p : Ports) : p.acceptLast.rst = p.rst := rfl
@[simp] theorem acceptLast_cmdIn (p : Ports) : p.acceptLast.cmdIn = p.cmdIn := rfl
@[simp] theorem acceptLast_cmdLast (p : Ports) :
    p.acceptLast.cmdLast = if p.stalled = true then p.cmdLast else none := rfl
@[simp] theorem acceptLast_rspOut (p : Ports) : p.acceptLast.rspOut = p.rspOut := rfl
@[simp] theorem acceptLast_rspMoved (p : Ports) : p.acceptLast.rspMoved = p.rspMoved := rfl
@[simp] theorem acceptLast_rspReady (p : Ports) : p.acceptLast.rspReady = p.rspReady := rfl

@[simp] theorem settle_rst (p : Ports) : p.settle.rst = p.rst := by unfold Ports.settle; split <;> rfl
@[simp] theorem settle_cmdIn (p : Ports) : p.settle.cmdIn = p.cmdIn := by unfold Ports.settle; split <;> rfl
@[simp] theorem settle_rspReady (p : Ports) : p.settle.rspReady = p.rspReady := by unfold Ports.settle; split <;> rfl
theorem settle_rspOut (p : Ports) : p.settle.rspOut = if p.rspReady = true then [] else p.rspOut := by
  unfold Ports.settle; split <;> rfl
@[simp] theorem settle_responses (p : Ports) : p.settle.rspMoved ++ p.settle.rspOut = p.rspMoved ++ p.rspOut := by
  unfold Ports.settle; split <;> simp
theorem settle_of_ready {p : Ports} (h : p.rspReady = true) :
    p.settle = { p with cmdLast := none, rspOut := [], rspMoved := p.rspMoved ++ p.rspOut } := if_pos h
theorem settle_of_not_ready {p : Ports} (h : p.rspReady = false) : p.settle = p := if_neg (by simp [h])

@[simp] theorem deliver_rst (ws : List Word) (p : Ports) : (deliver ws p).rst = p.rst := rfl
@[simp] theorem deliver_cmdIn (ws : List Word) (p : Ports) : (deliver ws p).cmdIn = p.cmdIn := rfl
@[simp] theorem deliver_rspOut (ws : List Word) (p : Ports) : (deliver ws p).rspOut = p.rspOut ++ ws := rfl
@[simp] theorem deliver_rspMoved (ws : List Word) (p : Ports) : (deliver ws p).rspMoved = p.rspMoved := rfl
@[simp] theorem deliver_rspReady (ws : List Word) (p : Ports) : (deliver ws p).rspReady = p.rspReady := rfl

/-- The command word a response leaves held back: none, or the one before, with the core stalled. -/
theorem deliver_cmdLast (ws : List Word) (p : Ports) :
    (deliver ws p).cmdLast = none ∨ ((deliver ws p).cmdLast = p.cmdLast ∧ p.rspReady = false ∧
      Config.rspBufWords < (p.rspOut ++ ws).length) := by
  by_cases h : Ports.stalled { p with rspOut := p.rspOut ++ ws, cmdLast := if ws.length ≤ 3 then none else p.cmdLast } = true
  · rw [deliver, acceptLast_cmdLast, if_pos h]
    obtain ⟨h1, h2⟩ := (stalled_iff _).1 h
    dsimp only at *
    split
    · exact .inl rfl
    · exact .inr ⟨rfl, h1, h2⟩
  · rw [deliver, acceptLast_cmdLast, if_neg h]; exact .inl rfl

theorem readWords_eq {s : State} (h : s.ports.rst = false) (n : Nat) :
    readWords n s = { s with ports := Ports.acceptLast { s.ports with rspMoved := s.ports.rspMoved ++ s.ports.rspOut.take n,
                                                                      rspOut := s.ports.rspOut.drop n } } := by
  rw [readWords, if_neg (by simp [h])]

@[simp] theorem setRspReady_st (b : Bool) (s : State) : (setRspReady b s).st = s.st := rfl
@[simp] theorem setRspReady_session (b : Bool) (s : State) : (setRspReady b s).session = s.session := rfl
@[simp] theorem setRspReady_parser (b : Bool) (s : State) : (setRspReady b s).parser = s.parser := rfl
@[simp] theorem setRspReady_rst (b : Bool) (s : State) : (setRspReady b s).ports.rst = s.ports.rst := rfl
@[simp] theorem setRspReady_cmdIn (b : Bool) (s : State) : (setRspReady b s).ports.cmdIn = s.ports.cmdIn := rfl
@[simp] theorem setRspReady_rspOut (b : Bool) (s : State) : (setRspReady b s).ports.rspOut = s.ports.rspOut := rfl
@[simp] theorem setRspReady_rspReady (b : Bool) (s : State) : (setRspReady b s).ports.rspReady = b := rfl

/-! The session registers -/

@[simp] theorem scInit_ks (key nonce : List Byte) (c : StreamCipher) : (scInit key nonce c).ks = c.ks := rfl
@[simp] theorem scInit_ko (key nonce : List Byte) (c : StreamCipher) : (scInit key nonce c).ko = 64 := rfl
@[simp] theorem regen_cs (c : StreamCipher) : (regen c).cs = ctrInc c.cs := rfl
@[simp] theorem regen_ks (c : StreamCipher) : (regen c).ks = block c.cs := rfl
@[simp] theorem regen_ko (c : StreamCipher) : (regen c).ko = 0 := rfl
@[simp] theorem polyInit_h (otk : List Byte) (a : AuthAccumulator) : (polyInit otk a).h = 0 := rfl
@[simp] theorem polyInit_pb (otk : List Byte) (a : AuthAccumulator) : (polyInit otk a).pb = a.pb := rfl
@[simp] theorem polyInit_pn (otk : List Byte) (a : AuthAccumulator) : (polyInit otk a).pn = 0 := rfl
@[simp] theorem encryptSession_authLength (d : List Byte) (n : Session) :
    (encryptSession d n).authLength = n.authLength := rfl
@[simp] theorem decryptSession_authLength (d : List Byte) (n : Session) :
    (decryptSession d n).authLength = n.authLength := rfl
@[simp] theorem absorbAad_cipher (aad : List Byte) (n : Session) : (absorbAad aad n).cipher = n.cipher := rfl
@[simp] theorem absorbAad_dataLength (aad : List Byte) (n : Session) : (absorbAad aad n).dataLength = 0 := rfl

end Sys2Proof.Laws
end

