-- ==== Sys2Proof/Laws/Ops.lean ====
section
/-! SUPPORT. What the shared operations of Machine/Ops.lean can do, said once, and what executing one command can do. -/

namespace Sys2Proof.Laws

open Sys2Proof.Machine

/-! Responses -/

theorem length_responseWords (w : Word) (b : List Byte) : (responseWords w b).length = 3 + wordCount b.length := by
  simp [responseWords, length_packWords]; omega

theorem responseWords_nil (w : Word) : responseWords w [] = [w, 0, 0] := by
  simp [responseWords, packWords]

/-- Everything `respond` does. -/
theorem respond_eq (opc : Byte) (err : Option ErrCode) (eq : Bool) (pl : List Byte) (s : State) :
    respond opc err eq pl s =
      .next { s with ports := deliver (responseWords (statusWord opc err eq s.st) pl) s.ports } := rfl

theorem responses_deliver {s t : State} {ws : List Word} (h : t.ports = deliver ws s.ports) :
    responses t = responses s ++ ws := by
  rw [responses, h, responses, deliver_rspMoved, deliver_rspOut, List.append_assoc]

@[simp] theorem responses_afterAccept (p : Parser) (l : Option Word) (r : List Word) (s : State) :
    responses (afterAccept p l r s) = responses s := settle_responses s.ports

/-- Everything `raiseError` does. -/
theorem raiseError_eq (opc : Byte) (e : ErrCode) (s : State) :
    raiseError opc e s = .next { s with ports := deliver (errorResponse opc e s.st) s.ports } := by
  rw [raiseError, respond_eq, responseWords_nil, errorResponse]

/-! The checks (R263) -/

theorem check_none_iff (c : Command) (r : BitVec 24) (n : Nat) (st : SessionState) : check c r n st = none ↔
    r = 0 ∧ legalLen c n = true ∧ permitted c st = true ∧ wrongDirection c st = false := by
  unfold check; grind

/-! One command -/

/-- `st` after a performed command. -/
def stAfter : Instr → State → SessionState
  | .init _ _, _ => .initialized
  | .encrypt _ _, _ => .authEnc
  | .decrypt _ _, _ => .authDec
  | .finish _ _, _ => .finished
  | .tagcmp _ _, s => s.st
  | .abort _ _, _ => .uninit

/-- The session registers after a performed command. -/
def sessionAfter : Instr → State → Session
  | .init _ p, s => initSession (keyOf p) (nonceOf p) (aadOf p) s.session
  | .encrypt _ p, s => encryptSession p s.session
  | .decrypt _ p, s => decryptSession p s.session
  | .finish _ _, _ => Session.reset
  | .tagcmp _ _, s => s.session
  | .abort _ _, _ => Session.reset

/-- The response payload of a performed command. -/
def output : Instr → State → List Byte
  | .init _ _, _ => []
  | .encrypt _ p, s => (apply p s.session.cipher).1
  | .decrypt _ p, s => (apply p s.session.cipher).1
  | .finish _ _, s => polyTag (finishAuth s.session)
  | .tagcmp _ _, _ => []
  | .abort _ _, _ => []

/-- The EQ bit of a performed command. -/
def eqBit : Instr → Bool
  | .init _ _ => false
  | .encrypt _ _ => false
  | .decrypt _ _ => false
  | .finish _ _ => false
  | .tagcmp _ p => ctEqual (tag1Of p) (tag2Of p)
  | .abort _ _ => false

/-- The response words of a performed command. -/
def okWords (i : Instr) (s : State) : List Word :=
  responseWords (statusWord i.opc none (eqBit i) (stAfter i s)) (output i s)

/-- The state after a performed command. -/
@[irreducible] def performed (i : Instr) (s : State) : State :=
  { s with st := stAfter i s, session := sessionAfter i s, ports := deliver (okWords i s) s.ports }

@[simp] theorem performed_st (i : Instr) (s : State) : (performed i s).st = stAfter i s := by rw [performed]
@[simp] theorem performed_session (i : Instr) (s : State) : (performed i s).session = sessionAfter i s := by
  rw [performed]
@[simp] theorem performed_parser (i : Instr) (s : State) : (performed i s).parser = s.parser := by rw [performed]
@[simp] theorem performed_ports (i : Instr) (s : State) : (performed i s).ports = deliver (okWords i s) s.ports := by
  rw [performed]
theorem responses_performed (i : Instr) (s : State) : responses (performed i s) = responses s ++ okWords i s :=
  responses_deliver (performed_ports i s)

theorem length_apply (d : List Byte) (c : StreamCipher) : (apply d c).1.length = d.length := by
  induction d generalizing c with
  | nil => rfl
  | cons b d ih => simp [apply, ih]

theorem length_output (i : Instr) (s : State) : (output i s).length = rlen i := by
  cases i <;> simp only [output, rlen, length_apply, List.length_nil]
  generalize finishAuth s.session = a
  rw [polyTag, length_toLE]

/-- What a command answers once it passes the checks. -/
def perform : Instr → State → Answer
  | .init _ p, s => respond 0x01 none false []
      { s with st := .initialized, session := initSession (keyOf p) (nonceOf p) (aadOf p) s.session }
  | .encrypt _ p, s => respond 0x02 none false (apply p s.session.cipher).1
      { s with st := .authEnc, session := encryptSession p s.session }
  | .decrypt _ p, s => respond 0x03 none false (apply p s.session.cipher).1
      { s with st := .authDec, session := decryptSession p s.session }
  | .finish _ _, s =>
    match polyFinal (finishAuth s.session) with
    | none => .fault .polyTail
    | some tag => respond 0x04 none false tag { zeroize s with st := .finished }
  | .tagcmp _ p, s => respond 0x05 none (ctEqual (tag1Of p) (tag2Of p)) [] s
  | .abort _ _, s => respond 0x06 none false [] { zeroize s with st := .uninit }

/-- Every meaning checks first. -/
theorem exec_eq (i : Instr) (s : State) :
    exec i s = match check (commandOf i) i.rsvd i.payload.length s.st with
      | some e => raiseError i.opc e s
      | none => perform i s := by cases i <;> rfl

/-- A command that passes the checks answers `performed`, unless it is a FINISH with a partial block left over. -/
theorem perform_eq (i : Instr) (s : State) :
    perform i s = .next (performed i s) ∨
      ((∃ r p, i = .finish r p) ∧ polyFinal (finishAuth s.session) = none ∧ perform i s = .fault .polyTail) := by
  unfold performed okWords
  cases i with
  | finish r p =>
    simp only [perform, output, stAfter, sessionAfter, eqBit, Instr.opc]
    cases h : polyFinal (finishAuth s.session) with
    | none => exact .inr ⟨⟨r, p, rfl⟩, rfl, rfl⟩
    | some tag =>
      obtain rfl : tag = polyTag (finishAuth s.session) := by
        revert h; generalize finishAuth s.session = a; intro h
        simp only [polyFinal] at h
        split at h
        · simpa using h.symm
        · simp at h
      exact .inl rfl
  | _ => exact .inl rfl

theorem perform_next {i : Instr} {s t : State} (h : perform i s = .next t) : t = performed i s := by
  rcases perform_eq i s with e | ⟨-, -, e⟩ <;> rw [e] at h
  · simpa using h.symm
  · simp at h

/-- Everything `exec` can answer: the error response and no other change (R262), the command performed, or FINISH's
internal fault. -/
theorem exec_cases (i : Instr) (s : State) :
    (∃ e, check (commandOf i) i.rsvd i.payload.length s.st = some e ∧
      exec i s = .next { s with ports := deliver (errorResponse i.opc e s.st) s.ports }) ∨
    (check (commandOf i) i.rsvd i.payload.length s.st = none ∧ exec i s = .next (performed i s)) ∨
    (check (commandOf i) i.rsvd i.payload.length s.st = none ∧ (∃ r p, i = .finish r p) ∧
      polyFinal (finishAuth s.session) = none ∧ exec i s = .fault .polyTail) := by
  rw [exec_eq]
  cases h : check (commandOf i) i.rsvd i.payload.length s.st with
  | some e => exact .inl ⟨e, rfl, raiseError_eq _ _ _⟩
  | none =>
    rcases perform_eq i s with e | ⟨hf, hp, e⟩
    · exact .inr (.inl ⟨rfl, e⟩)
    · exact .inr (.inr ⟨rfl, hf, hp, e⟩)

/-- Everything `exec` can answer as a next state. -/
theorem exec_next {i : Instr} {s t : State} (h : exec i s = .next t) :
    (∃ e, check (commandOf i) i.rsvd i.payload.length s.st = some e ∧
      t = { s with ports := deliver (errorResponse i.opc e s.st) s.ports }) ∨
    (check (commandOf i) i.rsvd i.payload.length s.st = none ∧ t = performed i s) := by
  rcases exec_cases i s with ⟨e, hc, he⟩ | ⟨hc, he⟩ | ⟨-, -, -, he⟩ <;> rw [he] at h
  · exact .inl ⟨e, hc, by simpa using h.symm⟩
  · exact .inr ⟨hc, by simpa using h.symm⟩
  · simp at h

/-- Only a step stalls; a command's own answer never does. -/
theorem exec_not_stall (i : Instr) (s : State) : exec i s ≠ .fault .responseStall := by
  rcases exec_cases i s with ⟨e, -, he⟩ | ⟨-, he⟩ | ⟨-, -, -, he⟩ <;> rw [he] <;> simp

/-- A command whose checks end in an error. -/
theorem exec_error {i : Instr} {s : State} {e : ErrCode}
    (h : check (commandOf i) i.rsvd i.payload.length s.st = some e) :
    exec i s = .next { s with ports := deliver (errorResponse i.opc e s.st) s.ports } := by
  rw [exec_eq, h]; exact raiseError_eq _ _ _

/-- A command that passes the checks. -/
theorem exec_performed {i : Instr} {s : State} (h0 : i.rsvd = 0)
    (h1 : legalLen (commandOf i) i.payload.length = true) (h2 : permitted (commandOf i) s.st = true)
    (h3 : wrongDirection (commandOf i) s.st = false) : exec i s = perform i s := by
  rw [exec_eq, (check_none_iff _ _ _ _).2 ⟨h0, h1, h2, h3⟩]

/-- A command's answer depends on `st` and the session registers only; the parser's registers and the streams are
carried along, and its response is delivered to whatever stream there is. -/
theorem exec_of_st_session {i : Instr} {s t : State} (h : exec i s = .next t) :
    ∃ ws, t = { s with st := t.st, session := t.session, ports := deliver ws s.ports } ∧
      ∀ u : State, u.st = s.st → u.session = s.session →
        exec i u = .next { u with st := t.st, session := t.session, ports := deliver ws u.ports } := by
  rcases exec_cases i s with ⟨e, hc, he⟩ | ⟨hc, he⟩ | ⟨-, -, -, he⟩ <;> rw [he] at h
  · obtain rfl : _ = t := by simpa using h
    refine ⟨errorResponse i.opc e s.st, rfl, fun u h1 h2 => ?_⟩
    rw [exec_error (e := e) (by rw [h1]; exact hc), ← h1, ← h2]
  · obtain rfl : _ = t := by simpa using h
    refine ⟨okWords i s, by rw [performed_st, performed_session, performed], fun u h1 h2 => ?_⟩
    have a1 : stAfter i u = stAfter i s := by cases i <;> simp only [stAfter, h1]
    have a2 : sessionAfter i u = sessionAfter i s := by cases i <;> simp only [sessionAfter, h2]
    have a3 : okWords i u = okWords i s := by
      rw [okWords, okWords, a1]; cases i <;> simp only [output, h2]
    rcases exec_cases i u with ⟨e, hc', he'⟩ | ⟨-, he'⟩ | ⟨-, ⟨r, p, rfl⟩, hp, he'⟩
    · rw [h1, hc] at hc'; simp at hc'
    · rw [he', performed_st, performed_session, performed, a1, a2, a3]
    · have q := exec_eq (.finish r p) s
      rw [hc, he] at q
      simp only [perform, ← h2, hp] at q
      simp at q
  · simp at h

end Sys2Proof.Laws
end

