-- ==== Sys2Proof/Laws/Cipher.lean ====
section
/-! SUPPORT. Laws of the keystream generator (Machine/StreamCipher.lean). -/

namespace Sys2Proof.Laws

open Sys2Proof.Machine

theorem rotl32_eq (x : Word) (n : Nat) (h : n < 32) : rotl32 x n = x.rotateLeft n := by
  simp [rotl32, BitVec.rotateLeft, BitVec.rotateLeftAux, Nat.mod_eq_of_lt h]

/-- Word `i` after a quarter-round. -/
theorem quarterRound_get (a b c d : Fin 16) (x : Vector Word 16) (i : Nat) (h : i < 16) :
    (quarterRound a b c d x)[i] =
      if d.val = i then (quarterWords x[a] x[b] x[c] x[d]).2.2.2
      else if c.val = i then (quarterWords x[a] x[b] x[c] x[d]).2.2.1
      else if b.val = i then (quarterWords x[a] x[b] x[c] x[d]).2.1
      else if a.val = i then (quarterWords x[a] x[b] x[c] x[d]).1 else x[i] := by
  simp only [quarterRound, Vector.getElem_set]

/-- A quarter-round leaves every other word alone. -/
theorem quarterRound_other (a b c d : Fin 16) (x : Vector Word 16) (i : Nat) (h : i < 16)
    (n : ¬ (d.val = i ∨ c.val = i ∨ b.val = i ∨ a.val = i)) : (quarterRound a b c d x)[i] = x[i] := by
  simp only [not_or] at n
  rw [quarterRound_get, if_neg n.1, if_neg n.2.1, if_neg n.2.2.1, if_neg n.2.2.2]

/-- A quarter-round's words depend on the four words it reads only. -/
theorem quarterRound_congr (a b c d : Fin 16) (x y : Vector Word 16) (ha : x[a] = y[a]) (hb : x[b] = y[b])
    (hc : x[c] = y[c]) (hd : x[d] = y[d]) (i : Nat) (h : i < 16) :
    (quarterRound a b c d x)[i] =
      if d.val = i ∨ c.val = i ∨ b.val = i ∨ a.val = i then (quarterRound a b c d y)[i] else x[i] := by
  rw [quarterRound_get, quarterRound_get, ha, hb, hc, hd]
  generalize quarterWords y[a] y[b] y[c] y[d] = w
  split_ifs <;> first | (exfalso; omega) | rfl

/-- LE32 as a number (R9). -/
theorem le32_toNat (b : List Byte) (i : Nat) (h : i + 4 ≤ b.length) : (le32 b i).toNat =
    (b.getD i 0).toNat + 2 ^ 8 * (b.getD (i + 1) 0).toNat + 2 ^ 16 * (b.getD (i + 2) 0).toNat +
      2 ^ 24 * (b.getD (i + 3) 0).toNat := by
  have : slice i (i + 4) b = [b.getD i 0, b.getD (i + 1) 0, b.getD (i + 2) 0, b.getD (i + 3) 0] := by
    simp only [slice, Nat.add_sub_cancel_left]
    rw [List.drop_eq_getElem_cons (by omega), List.drop_eq_getElem_cons (by omega),
      List.drop_eq_getElem_cons (by omega), List.drop_eq_getElem_cons (by omega)]
    simp only [List.getD_eq_getElem _ _ (show i < b.length by omega),
      List.getD_eq_getElem _ _ (show i + 1 < b.length by omega),
      List.getD_eq_getElem _ _ (show i + 2 < b.length by omega),
      List.getD_eq_getElem _ _ (show i + 3 < b.length by omega)]
    rfl
  rw [le32, this, BitVec.toNat_ofNat]
  simp only [leNat]
  have h0 := (b.getD i 0).isLt
  have h1 := (b.getD (i + 1) 0).isLt
  have h2 := (b.getD (i + 2) 0).isLt
  have h3 := (b.getD (i + 3) 0).isLt
  omega

/-! Bytes and blocks -/

theorem applyByte_buffered (b : Byte) (c : StreamCipher) (h : c.ko.val < 64) :
    applyByte b c = useByte ⟨c.ko.val, h⟩ b c := by rw [applyByte, dif_pos h]

theorem applyByte_regen (b : Byte) (c : StreamCipher) (h : ¬ c.ko.val < 64) :
    applyByte b c = useByte 0 b (regen c) := by rw [applyByte, dif_neg h]

theorem apply_append (a b : List Byte) (c : StreamCipher) :
    apply (a ++ b) c = ((apply a c).1 ++ (apply b (apply a c).2).1, (apply b (apply a c).2).2) := by
  induction a generalizing c with
  | nil => rfl
  | cons x a ih => simp [apply, ih]

theorem wordsAfter_succ (q : Nat) (cs : Vector Word 16) : wordsAfter (q + 1) cs = ctrInc (wordsAfter q cs) := by
  induction q generalizing cs with
  | zero => rfl
  | succ q ih => rw [wordsAfter, ih, wordsAfter]

theorem wordsAfter_add (m n : Nat) (cs : Vector Word 16) : wordsAfter m (wordsAfter n cs) = wordsAfter (n + m) cs := by
  induction n generalizing cs with
  | zero => simp [wordsAfter]
  | succ n ih => rw [Nat.succ_add, wordsAfter, wordsAfter, ih]

theorem length_xorKeystream (cs : Vector Word 16) (j : Nat) (a : List Byte) : (xorKeystream cs j a).length = a.length := by
  induction a generalizing j with
  | nil => rfl
  | cons x a ih => simp [xorKeystream, ih]

theorem xorKeystream_append (cs : Vector Word 16) (j : Nat) (a b : List Byte) :
    xorKeystream cs j (a ++ b) = xorKeystream cs j a ++ xorKeystream cs (j + a.length) b := by
  induction a generalizing j with
  | nil => rfl
  | cons x a ih => simp only [List.cons_append, xorKeystream, ih, List.length_cons]; congr 3; omega

theorem xorKeystream_twice (cs : Vector Word 16) (j : Nat) (a : List Byte) :
    xorKeystream cs j (xorKeystream cs j a) = a := by
  induction a generalizing j with
  | nil => rfl
  | cons x a ih => simp only [xorKeystream, ih, BitVec.xor_assoc, BitVec.xor_self, BitVec.xor_zero]

theorem xorKeystream_zeros (cs : Vector Word 16) (j n : Nat) :
    xorKeystream cs j (zeros n) = (List.range n).map fun k => keystreamByte cs (j + k) := by
  induction n generalizing j with
  | zero => rfl
  | succ n ih =>
    rw [zeros, List.replicate_succ, xorKeystream]
    have := ih (j + 1); rw [zeros] at this; rw [this]
    rw [List.range_succ_eq_map, List.map_cons, List.map_map]
    congr 1
    · exact BitVec.zero_xor
    · apply List.map_congr_left; intro k _; simp [Function.comp]; congr 1; omega

/-- The cipher stands at byte `j` of the keystream that starts at the state `cs0`, as SC_INIT, REGEN and APPLY_BYTE
leave it. -/
def StandsAt (cs0 : Vector Word 16) (j : Nat) (c : StreamCipher) : Prop :=
  (j % 64 = 0 → c.ko.val = 64 ∧ c.cs = wordsAfter (j / 64) cs0) ∧
  (j % 64 ≠ 0 → c.ko.val = j % 64 ∧ c.cs = wordsAfter (j / 64 + 1) cs0 ∧ c.ks = block (wordsAfter (j / 64) cs0))

theorem standsAt_zero {c : StreamCipher} (h : c.ko.val = 64) : StandsAt c.cs 0 c :=
  ⟨fun _ => ⟨h, rfl⟩, fun h => absurd rfl h⟩

theorem standsAt_byte {cs0 : Vector Word 16} {j : Nat} {c : StreamCipher} (h : StandsAt cs0 j c) (b : Byte) :
    (applyByte b c).1 = b ^^^ keystreamByte cs0 j ∧ StandsAt cs0 (j + 1) (applyByte b c).2 := by
  by_cases hj : j % 64 = 0
  · obtain ⟨k, hc⟩ := h.1 hj
    rw [applyByte_regen b c (by omega)]
    constructor
    · simp [useByte, keystreamByte, hc, hj]
    · constructor
      · intro; omega
      · intro _
        refine ⟨?_, ?_, ?_⟩
        · simp [useByte]; omega
        · show ctrInc c.cs = _
          rw [hc, ← wordsAfter_succ]; congr 1; omega
        · show block c.cs = _
          rw [hc]; congr 2; omega
  · obtain ⟨k, hc, hk⟩ := h.2 hj
    rw [applyByte_buffered b c (by omega)]
    constructor
    · simp [useByte, keystreamByte, hk, k]
    · constructor
      · intro h0
        refine ⟨?_, ?_⟩
        · simp [useByte]; omega
        · show c.cs = _
          rw [hc]; congr 1; omega
      · intro h0
        refine ⟨?_, ?_, ?_⟩
        · simp [useByte]; omega
        · show c.cs = _
          rw [hc]; congr 1; omega
        · show c.ks = _
          rw [hk]; congr 2; omega

/-- APPLY from byte `j` on: what it emits and where it leaves the cipher. -/
theorem standsAt_apply (d : List Byte) {cs0 : Vector Word 16} {j : Nat} {c : StreamCipher} (h : StandsAt cs0 j c) :
    (apply d c).1 = xorKeystream cs0 j d ∧ StandsAt cs0 (j + d.length) (apply d c).2 := by
  induction d generalizing j c with
  | nil => exact ⟨rfl, h⟩
  | cons b d ih =>
    obtain ⟨h1, h2⟩ := standsAt_byte h b
    obtain ⟨h3, h4⟩ := ih h2
    simp only [apply, xorKeystream, h1, h3, true_and]
    rw [List.length_cons, show j + (d.length + 1) = j + 1 + d.length by omega]
    exact h4

end Sys2Proof.Laws
end

