-- ==== Sys2Proof/Laws/Fetch.lean ====
section
/-! SUPPORT. Laws of the parser (Machine/Fetch.lean) and of one step. -/

namespace Sys2Proof.Laws

open Sys2Proof.Machine

/-- Accepting words in `PAY` with `k` payload words missing. -/
theorem acceptFrame_pay (ws : List Word) (p : Parser) (hp : p.ph = .pay) (k : Nat) (hk : 0 < k)
    (hr : p.rem = BitVec.ofNat 64 k) (hk64 : k < 2 ^ 64) :
    acceptFrame ws p =
      if ws.length < k then ({ p with pw := p.pw ++ ws, rem := BitVec.ofNat 64 (k - ws.length) }, none, [])
      else (p.atHeader, some ⟨p.hw0, p.hw1, p.hw2, p.pw ++ ws.take k⟩, ws.drop k) := by
  induction ws generalizing p k with
  | nil =>
    rw [if_pos (by simpa using hk), acceptFrame]
    simp [← hr]
  | cons w ws ih =>
    have e : p.rem - 1 = BitVec.ofNat 64 (k - 1) := by
      rw [hr]; apply BitVec.eq_of_toNat_eq
      simp [BitVec.toNat_sub]; omega
    have z : p.rem - 1 = 0 ↔ k = 1 := by
      rw [e]; constructor
      · intro h; have := congrArg BitVec.toNat h; simp at this; omega
      · rintro rfl; rfl
    rw [acceptFrame, acceptWord, hp]
    dsimp only
    by_cases h1 : k = 1
    · rw [if_pos (z.2 h1)]
      subst h1
      rw [if_neg (by simp)]
      simp
    · rw [if_neg (fun h => h1 (z.1 h))]
      dsimp only
      rw [ih _ rfl (k - 1) (by omega) e (by omega)]
      simp only [List.length_cons]
      by_cases h2 : ws.length < k - 1
      · rw [if_pos h2, if_pos (by omega)]; simp; congr 1; omega
      · rw [if_neg h2, if_neg (by omega)]
        obtain ⟨j, rfl⟩ : ∃ j, k = j + 1 := ⟨k - 1, by omega⟩
        simp [Parser.atHeader]

/-- Accepting words from the start of a frame, once the header is there. -/
theorem acceptFrame_header (a b c : Word) (ws : List Word) (p : Parser) (hp : p.ph = .hdr0) :
    acceptFrame (a :: b :: c :: ws) p =
      if ws.length < wordCount (lenField b c)
      then ({ ph := .pay, hw0 := a, hw1 := b, hw2 := c,
              rem := BitVec.ofNat 64 (wordCount (lenField b c) - ws.length), pw := ws }, none, [])
      else ({ ph := .hdr0, hw0 := a, hw1 := b, hw2 := c, rem := 0, pw := [] },
            some ⟨a, b, c, ws.take (wordCount (lenField b c))⟩, ws.drop (wordCount (lenField b c))) := by
  have hl := wordCount_lt (lenField_lt b c)
  rw [acceptFrame, acceptWord, hp]
  dsimp only
  rw [acceptFrame, acceptWord]
  dsimp only
  rw [acceptFrame, acceptWord]
  dsimp only
  by_cases h : wordCount (lenField b c) = 0
  · rw [if_pos (by rw [h]; rfl), if_neg (by omega)]
    simp [Parser.atHeader, h]
  · rw [if_neg (fun e => h (by have := congrArg BitVec.toNat e; simp at this; omega))]
    dsimp only
    rw [acceptFrame_pay _ _ rfl _ (by omega) rfl hl]
    simp [Parser.atHeader]

/-- Words that complete no frame are all accepted, and accepting more goes on from there. -/
theorem acceptFrame_append (a b : List Word) (p q : Parser) (r : List Word) (h : acceptFrame a p = (q, none, r)) :
    r = [] ∧ acceptFrame (a ++ b) p = acceptFrame b q := by
  induction a generalizing p with
  | nil => simp [acceptFrame] at h; obtain ⟨rfl, rfl⟩ := h; simp
  | cons w a ih =>
    rw [acceptFrame] at h
    rw [List.cons_append, acceptFrame]
    rcases hw : acceptWord w p with ⟨p', f⟩
    rw [hw] at h
    cases f with
    | some f => simp at h
    | none => exact ih _ h

/-- One word keeps the parser's registers in agreement. -/
theorem acceptWord_inv (w : Word) (p : Parser) (h : ParserInv p) : ParserInv (acceptWord w p).1 := by
  obtain ⟨h1, h2⟩ := h
  unfold acceptWord
  cases hp : p.ph with
  | hdr0 => simp_all [ParserInv]
  | hdr1 => simp_all [ParserInv]
  | hdr2 =>
    dsimp only
    have hl := wordCount_lt (lenField_lt p.hw1 w)
    split_ifs with h
    · simp [ParserInv, Parser.atHeader]
    · have : wordCount (lenField p.hw1 w) ≠ 0 := fun e => h (by rw [e]; rfl)
      simp [ParserInv]
      omega
  | pay =>
    obtain ⟨a, b⟩ := h1 hp
    dsimp only
    have e : (p.rem - 1).toNat = p.rem.toNat - 1 := by
      have := p.rem.isLt
      rw [BitVec.toNat_sub]; simp; omega
    split_ifs with h
    · simp [ParserInv, Parser.atHeader]
    · have : (p.rem - 1).toNat ≠ 0 := fun e => h (BitVec.eq_of_toNat_eq (by simpa using e))
      simp only [ParserInv, e]
      simp
      omega

theorem fetch_of (s : State) (h : s.ports.rst = false) (hs : NotStalled s) (hc : s.ports.cmdIn ≠ []) :
    fetch s = fetchedFrom (acceptFrame s.ports.cmdIn s.parser) s := by
  rw [fetch, if_neg (by simp [h]), if_neg (by simp [not_stalled hs]), if_neg (by simp [hc])]

/-- With no word offered, the words on their way move to a reading host, and the parser waits. -/
theorem fetch_drain (s : State) (h : s.ports.rst = false) (hr : s.ports.rspReady = true) (ho : s.ports.rspOut ≠ [])
    (hc : s.ports.cmdIn = []) : fetch s = .waiting (afterAccept s.parser none [] s) := by
  rw [fetch, if_neg (by simp [h]), if_neg (by simp [not_stalled (.inl hr)]), if_neg (by simp [hr, ho]), hc]
  rfl

theorem fetch_noWord (s : State) (h : s.ports.rst = false) (hs : NotStalled s) (hc : s.ports.cmdIn = [])
    (ho : s.ports.rspReady = false ∨ s.ports.rspOut = []) : fetch s = .noWord := by
  rw [fetch, if_neg (by simp [h]), if_neg (by simp [not_stalled hs]), if_pos ⟨hc, ho⟩]

theorem fetch_stalled (s : State) (h : s.ports.rst = false) (hr : s.ports.rspReady = false)
    (hs : Config.rspBufWords < s.ports.rspOut.length) : fetch s = .stalled := by
  rw [fetch, if_neg (by simp [h]), if_pos ((stalled_iff _).2 ⟨hr, hs⟩)]

/-- Everything `fetch` can do. -/
theorem fetch_cases (s : State) :
    (s.ports.rst = true ∧ fetch s = .heldInReset (hardReset s)) ∨
    (s.ports.rst = false ∧ s.ports.rspReady = false ∧ Config.rspBufWords < s.ports.rspOut.length ∧
      fetch s = .stalled) ∨
    (s.ports.rst = false ∧ NotStalled s ∧
      ((s.ports.cmdIn = [] ∧ (s.ports.rspReady = false ∨ s.ports.rspOut = []) ∧ fetch s = .noWord) ∨
       (¬ (s.ports.cmdIn = [] ∧ (s.ports.rspReady = false ∨ s.ports.rspOut = [])) ∧
        fetch s = fetchedFrom (acceptFrame s.ports.cmdIn s.parser) s))) := by
  unfold fetch
  by_cases h : s.ports.rst = true
  · exact .inl ⟨h, if_pos h⟩
  · rw [if_neg h]
    by_cases hs : s.ports.stalled = true
    · obtain ⟨h1, h2⟩ := (stalled_iff _).1 hs
      exact .inr (.inl ⟨by simpa using h, h1, h2, if_pos hs⟩)
    · rw [if_neg hs]
      refine .inr (.inr ⟨by simpa using h, ?_, ?_⟩)
      · rw [stalled_iff] at hs
        cases hr : s.ports.rspReady with
        | true => exact .inl hr
        | false => exact .inr (by simpa [hr] using hs)
      · by_cases hc : s.ports.cmdIn = [] ∧ (s.ports.rspReady = false ∨ s.ports.rspOut = [])
        · exact .inl ⟨hc.1, hc.2, if_pos hc⟩
        · exact .inr ⟨hc, if_neg hc⟩

/-- When `fetch` waits. -/
theorem fetch_waiting {s t : State} (h : fetch s = .waiting t) : s.ports.rst = false ∧ NotStalled s ∧
    ∃ p, acceptFrame s.ports.cmdIn s.parser = (p, none, []) ∧ t = afterAccept p none [] s := by
  rcases fetch_cases s with ⟨-, e⟩ | ⟨-, -, -, e⟩ | ⟨h1, h2, ⟨-, -, e⟩ | ⟨-, e⟩⟩ <;> rw [e] at h
  · simp at h
  · simp at h
  · simp at h
  refine ⟨h1, h2, ?_⟩
  rcases e : acceptFrame s.ports.cmdIn s.parser with ⟨p, f, rest⟩
  rw [e] at h
  cases f with
  | none =>
    obtain rfl := (acceptFrame_append _ [] _ _ _ e).1
    simp only [fetchedFrom] at h
    exact ⟨p, rfl, by simpa using h.symm⟩
  | some f => simp only [fetchedFrom] at h; split at h <;> simp at h

/-- Words accepted in two parts move the same response words as words accepted at once. -/
theorem afterAccept_in_two_parts (p q : Parser) (l : Option Word) (more r : List Word) (s : State) :
    afterAccept q l r (offerWords more (afterAccept p none [] s)) = afterAccept q l r (offerWords more s) := by
  cases hr : s.ports.rspReady with
  | true => simp only [afterAccept, offerWords, settle_of_ready hr]; simp [Ports.settle, hr]
  | false => simp only [afterAccept, offerWords, settle_of_not_ready hr]; simp [Ports.settle, hr]

/-- Everything a step can answer as a next state. -/
theorem step_next {s t : State} (h : step s = .next t) :
    (s.ports.rst = true ∧ t = hardReset s) ∨
    (s.ports.rst = false ∧ NotStalled s ∧ ∃ p f rest, acceptFrame s.ports.cmdIn s.parser = (p, f, rest) ∧
      ((f = none ∧ t = afterAccept p none rest s) ∨
       (∃ g i, f = some g ∧ decodeFrame g = some i ∧ exec i (afterAccept p g.pw.getLast? rest s) = .next t) ∨
       (∃ g, f = some g ∧ decodeFrame g = none ∧
        illegalOpcode (opcField g.hw0) (afterAccept p g.pw.getLast? rest s) = .next t))) := by
  unfold step at h
  rcases fetch_cases s with ⟨hr, e⟩ | ⟨-, -, -, e⟩ | ⟨h1, h2, ⟨-, -, e⟩ | ⟨-, e⟩⟩ <;> rw [e] at h
  · exact .inl ⟨hr, by simpa using h.symm⟩
  · simp at h
  · simp at h
  · refine .inr ⟨h1, h2, ?_⟩
    rcases e : acceptFrame s.ports.cmdIn s.parser with ⟨p, f, rest⟩
    refine ⟨p, f, rest, rfl, ?_⟩
    rw [e] at h
    cases f with
    | none => simp only [fetchedFrom] at h; exact .inl ⟨rfl, by simpa using h.symm⟩
    | some g =>
      simp only [fetchedFrom] at h
      cases hg : decodeFrame g with
      | some i => rw [hg] at h; exact .inr (.inl ⟨g, i, rfl, hg, h⟩)
      | none => rw [hg] at h; exact .inr (.inr ⟨g, rfl, hg, h⟩)

/-- When a step is stuck on the response stream (R311). -/
theorem step_stalled_iff (s : State) : step s = .fault .responseStall ↔
    s.ports.rst = false ∧ s.ports.rspReady = false ∧ Config.rspBufWords < s.ports.rspOut.length := by
  constructor
  · intro h
    unfold step at h
    rcases fetch_cases s with ⟨-, e⟩ | ⟨h1, h2, h3, -⟩ | ⟨-, -, ⟨-, -, e⟩ | ⟨-, e⟩⟩
    · rw [e] at h; simp at h
    · exact ⟨h1, h2, h3⟩
    · rw [e] at h; simp at h
    · rw [e] at h
      unfold fetchedFrom at h
      cases hf : (acceptFrame s.ports.cmdIn s.parser).2.1 with
      | none => rw [hf] at h; simp at h
      | some g =>
        rw [hf] at h
        dsimp only at h
        cases hg : decodeFrame g with
        | none => rw [hg] at h; simp [illegalOpcode, raiseError_eq] at h
        | some i => rw [hg] at h; exact absurd h (exec_not_stall _ _)
  · rintro ⟨h1, h2, h3⟩
    rw [step, fetch_stalled s h1 h2 h3]

theorem run_succ (M : Host.Core) (k : Nat) (s t : M.State) (h : M.step s = .next t) : M.run (k + 1) s = M.run k t := by
  simp only [Host.Core.run, h]

theorem execAll_append (a b : List Instr) (s : State) : execAll (a ++ b) s = (execAll a s).bind (execAll b) := by
  induction a generalizing s with
  | nil => rfl
  | cons i a ih =>
    rw [List.cons_append, execAll, execAll]
    cases exec i s with
    | next t => exact ih t
    | fault f => rfl
    | refused r => rfl

end Sys2Proof.Laws
end

