-- ==== Sys2Proof/Laws/PerInstr.lean ====
section
/-! SUPPORT. Statements made for every instruction, one lemma a constructor. -/

namespace Sys2Proof.Laws

/-- The opcode map gives an instruction back from its own opcode, reserved field and payload (R86). -/
def OpcodeMap.Statement (i : Instr) : Prop := instrOf i.opc i.rsvd i.payload = some i

theorem OpcodeMap.init (r : BitVec 24) (p : List Byte) : OpcodeMap.Statement (.init r p) := rfl
theorem OpcodeMap.encrypt (r : BitVec 24) (p : List Byte) : OpcodeMap.Statement (.encrypt r p) := rfl
theorem OpcodeMap.decrypt (r : BitVec 24) (p : List Byte) : OpcodeMap.Statement (.decrypt r p) := rfl
theorem OpcodeMap.finish (r : BitVec 24) (p : List Byte) : OpcodeMap.Statement (.finish r p) := rfl
theorem OpcodeMap.tagcmp (r : BitVec 24) (p : List Byte) : OpcodeMap.Statement (.tagcmp r p) := rfl
theorem OpcodeMap.abort (r : BitVec 24) (p : List Byte) : OpcodeMap.Statement (.abort r p) := rfl

end Sys2Proof.Laws
end

