-- ==== Sys2Proof/Tests/Slice0.lean ====
section
/-! SUPPORT. The model's own tests. Expected values come from the spec: 95_test_vectors.md (named by its row) and
hand encoding from 30_encoding.md. The last part shows, for each statement with hypotheses, a state that meets them. -/

namespace Sys2Proof.Tests

open Sys2Proof.Machine

-- one test after the other: side by side, the kernel evaluations need many threads and their stacks
set_option Elab.async false

/-! ## Well-formedness -/

theorem test_wellFormed_refuses_length (p : List Byte) (h : p.length = 2 ^ 64) :
    (Instr.encrypt 0 p).wellFormed = false := by
  rw [Instr.wellFormed, Instr.lenFits, Instr.payload, h]; decide

/-- The one check: a payload longer than LEN can say is refused (R83). -/
theorem test_wellFormed_refuses_overlong_payload :
    (Instr.encrypt 0 (List.replicate (2 ^ 64) 0)).wellFormed = false :=
  test_wellFormed_refuses_length _ List.length_replicate

theorem test_wellFormed_accepts_reserved_bits_and_bad_length : (Instr.finish 5 [1, 2]).wellFormed = true := by decide

/-! ## Decoding words written out from R82 to R86: `hw0` is 24 reserved bits, then the opcode byte -/

theorem test_decode_init :
    decode ([0b000000000000000000000000_00000001, 0x2d, 0] ++ List.replicate 11 0x04030201 ++ [0xffffff05, 9]) =
      .instr (.init 0 ((List.replicate 11 [1, 2, 3, 4]).flatten ++ [5])) [9] := by decide

/-- V-CMD, the ENCRYPT row: the last word's lanes 1 to 3 are dropped. -/
theorem test_decode_encrypt :
    decode [0b000000000000000000000000_00000010, 5, 0, 0x04030201, 0xffffff05] =
      .instr (.encrypt 0 [1, 2, 3, 4, 5]) [] := by decide

theorem test_decode_decrypt :
    decode [0b000000000000000000000000_00000011, 1, 0, 0x000000aa] = .instr (.decrypt 0 [0xaa]) [] := by decide

/-- R99. -/
theorem test_decode_finish :
    decode [0b000000000000000000000000_00000100, 0, 0] = .instr (.finish 0 []) [] := by decide

theorem test_decode_tagcmp :
    decode ([0b000000000000000000000000_00000101, 0x20, 0] ++ List.replicate 4 0x0d0c0b0a ++ List.replicate 4 0) =
      .instr (.tagcmp 0 ((List.replicate 4 [0x0a, 0x0b, 0x0c, 0x0d]).flatten ++ List.replicate 16 0)) [] := by decide

theorem test_decode_abort_with_reserved_bit_8 :
    decode [0b000000000000000000000001_00000110, 0, 0] = .instr (.abort 1 []) [] := by decide

theorem test_decode_reserved_opcode :
    decode [0b000000000000000000000000_00000111, 5, 0, 0x04030201, 0x00000005, 3] = .reservedOpcode 7 [3] := by decide

theorem test_decodeTableWord :
    decodeTableWord 96 6 = some (.abort 0 []) ∧ decodeTableWord 128 (3 + 2 ^ 32 + 2 ^ 96 * 0xaa) = some (.decrypt 0 [0xaa]) ∧
      decodeTableWord 32 (0xfff00 + 5) = some (.tagcmp 0xfff []) ∧ decodeTableWord 96 7 = none := by decide

/-! ## One step -/

/-- The core in session state `st`, as after reset otherwise. -/
def inState (st : SessionState) : State := { State.reset with st := st }

/-- The session registers after INIT with the zero key and nonce and no AAD, but for `ks` (W2 and P4's table). -/
def zeroKeySession : Session :=
  { cipher :=
      { cs := #v[0x61707865, 0x3320646e, 0x79622d32, 0x6b206574, 0, 0, 0, 0, 0, 0, 0, 0, 1, 0, 0, 0]
        ks := Vector.replicate 64 0
        ko := 64 }
    auth :=
      { h := 0, r := 0x08bd8650056a5d40003df1a00de0b876, s := 0xc70d778bccef36a81aed8da0b819d2bd
        pb := Vector.replicate 16 0, pn := 0 }
    authLength := 0
    dataLength := 0 }

def initialized : State := { inState .initialized with session := zeroKeySession }

/-- The responses after one step with the words `ws` offered. -/
def responseTo (ws : List Word) (s : State) : List Word := ((nextState (step (offerWords ws s))).map responses).getD []

/-- The state after one step with the words `ws` offered. -/
def stateAfter (ws : List Word) (s : State) : State := (nextState (step (offerWords ws s))).getD s

/-- V-AE-3's first row: `h` after INIT of the W1 session, and the counter. -/
theorem test_init_w1 :
    let t := stateAfter [0x00000001, 0x00000038, 0, 0x83828180, 0x87868584, 0x8b8a8988, 0x8f8e8d8c, 0x93929190,
      0x97969594, 0x9b9a9998, 0x9f9e9d9c, 0x00000007, 0x43424140, 0x47464544, 0x53525150, 0xc3c2c1c0, 0xc7c6c5c4]
      State.reset
    t.session.auth.h = 0x1bb22680babc3dcdc0a0c9a383695c4a3 ∧ t.session.auth.r = 0x0455e9a4057ab6080f47b42c052bac7b ∧
      t.session.auth.s = 0xff53d53e7875932aebd9751073d6e10a ∧ t.session.cipher.cs[12] = 1 ∧
      responses t = [0x00010001, 0, 0] := by decide +kernel

/-- V-CMD: RESERVED_BITS wins over SEQUENCE, and over the length. -/
theorem test_init_reserved_bits : responseTo [0x00000101, 0, 0] initialized = [0x00010201, 0, 0] := by decide +kernel

/-- V-CMD, the ENCRYPT row after INIT with the zero key and nonce. -/
theorem test_encrypt_five_bytes :
    responseTo [0x00000002, 5, 0, 0x04030201, 0xffffff05] initialized =
      [0x00020002, 5, 0, 0xbae4059e, 0x00000050] := by decide +kernel

theorem test_encrypt_in_uninit : responseTo [0x00000002, 0, 0] State.reset = [0x00000402, 0, 0] := by decide +kernel

/-- V-AE-4: a DECRYPT of length 0 fixes the direction. -/
theorem test_decrypt_nothing :
    responseTo [0x00000003, 0, 0] initialized = [0x00030003, 0, 0] ∧
      (stateAfter [0x00000003, 0, 0] initialized).st = .authDec := by decide +kernel

theorem test_decrypt_wrong_direction :
    responseTo [0x00000003, 1, 0, 0xaa] (inState .authEnc) = [0x00020503, 0, 0] := by decide +kernel

/-- P1's last command, from the registers of V-AE-3's second row; the partial block holds the ciphertext's last two
bytes. -/
theorem test_finish_w1 :
    responseTo [0x00000004, 0, 0]
      { inState .authEnc with
        session := { zeroKeySession with
          auth := { h := 0xc3349da19703f736bc0fd003f69230ec, r := 0x0455e9a4057ab6080f47b42c052bac7b,
                    s := 0xff53d53e7875932aebd9751073d6e10a, pb := (Vector.replicate 16 0).set 0 0x61 |>.set 1 0x16,
                    pn := 2 },
          authLength := 12, dataLength := 114 } } =
      [0x00040004, 0x10, 0, 0x590be11a, 0x6ae2094f, 0xcb2e907e, 0x910660d0] := by decide +kernel

/-- V-PA-11: a forced partial block is the internal fault, not a tag. -/
theorem test_finish_partial_block :
    faultOf (exec (.finish 0 []) { initialized with
      session := { zeroKeySession with auth := { zeroKeySession.auth with pn := 5 } } }) = some .polyTail := by
  decide +kernel

/-- P2's two comparisons. -/
theorem test_tagcmp_tampered :
    responseTo [5, 0x20, 0, 0x590be11a, 0x6ae2094f, 0xcb2e907e, 0x910660d0, 0x590be11b, 0x6ae2094f, 0xcb2e907e,
      0x910660d0] (inState .finished) = [0x00040005, 0, 0] := by decide +kernel

theorem test_tagcmp_equal :
    responseTo ([5, 0x20, 0] ++ List.replicate 8 0) State.reset = [0x00001005, 0, 0] := by decide +kernel

theorem test_abort :
    responseTo [6, 0, 0] { initialized with st := .authEnc } = [6, 0, 0] ∧
      (stateAfter [6, 0, 0] { initialized with st := .authEnc }).session = Session.reset := by decide +kernel

theorem test_abort_reserved_bit : responseTo [0x106, 0, 0] (inState .finished) = [0x00040206, 0, 0] := by
  decide +kernel

/-- V-CMD: the opcode wins over the reserved bits, and the payload is consumed. -/
theorem test_reserved_opcode_step :
    responseTo [0x107, 5, 0, 0x04030201, 5] (inState .finished) = [0x00040107, 0, 0] := by decide +kernel

/-- P5: the parser waits in `PAY` with one word missing, and reset loses the session. -/
theorem test_partial_frame_and_reset :
    let t := stateAfter [2, 8, 0, 0x11111111] (inState .authEnc)
    t.parser.ph = .pay ∧ t.parser.rem = 1 ∧ responses t = [] ∧
      responseTo [4, 0, 0] (releaseReset (assertReset t)) = [0x00000404, 0, 0] := by decide +kernel

/-- R301: reset cuts the five-word response of V-CMD's ENCRYPT after the two words the host has read. -/
theorem test_reset_cuts_the_response :
    let t := stateAfter [0x00000002, 5, 0, 0x04030201, 0xffffff05] initialized
    rspData (readWords 2 t) = some 0 ∧
      (releaseReset (assertReset (readWords 2 t))).ports.rspMoved = [0x00020002, 5] ∧
      responses (releaseReset (assertReset (readWords 2 t))) = [0x00020002, 5] := by decide +kernel

/-- R300 and D32: `withFetchWord` makes the word the next frame. -/
theorem test_withFetchWord :
    (nextState (step (State.reset.withFetchWord 96 6))).map responses = some [6, 0, 0] ∧
      (nextState (step (State.reset.withFetchWord 32 7))).map responses = some [0x107, 0, 0] := by decide +kernel

/-! ## Shared operations -/

/-- V-SC-3, the first and last words of the block. -/
theorem test_block :
    let b := block #v[0x61707865, 0x3320646e, 0x79622d32, 0x6b206574, 0x03020100, 0x07060504, 0x0b0a0908, 0x0f0e0d0c,
      0x13121110, 0x17161514, 0x1b1a1918, 0x1f1e1d1c, 1, 0x09000000, 0x4a000000, 0]
    b.toList.take 8 = [0x10, 0xf1, 0xe7, 0xe4, 0xd1, 0x3b, 0x59, 0x15] ∧
      b.toList.drop 56 = [0xcb, 0xd0, 0x83, 0xe8, 0xa2, 0x50, 0x3c, 0x4e] := by decide +kernel

/-- V-PA-2, both blocks, from V-PA-1's key. -/
theorem test_polyUpdate :
    (polyUpdate [0x43, 0x72, 0x79, 0x70, 0x74, 0x6f, 0x67, 0x72, 0x61, 0x70, 0x68, 0x69, 0x63, 0x20, 0x46, 0x6f, 0x72, 0x75,
      0x6d, 0x20, 0x52, 0x65, 0x73, 0x65, 0x61, 0x72, 0x63, 0x68, 0x20, 0x47, 0x72, 0x6f]
      { AuthAccumulator.reset with r := 0x0806d5400e52447c036d555408bed685 }).h =
      0x2d8adaf23b0337fa7cccfb4ea344b30de := by decide +kernel

/-- P3's lines 9 to 12, assembled from text. -/
theorem test_assembler :
    assembleText [] ".frame  opc=7, rsvd=0, len=5, data=0102030405 ; ILLEGAL_OPCODE".toList =
        some [7, 5, 0, 0x04030201, 5] ∧
      assembleText [] ".frame  opc=6, rsvd=1, len=0, data=\"\"".toList = some [0x106, 0, 0] ∧
      assembleText [] "ABORT".toList = some [6, 0, 0] ∧
      assembleText [] "INIT key=00, nonce=00".toList = none := by decide +kernel

/-! ## Witnesses: for each statement with hypotheses, states and operands that meet them all -/

/-- A live encrypting session of the W1 registers, one byte into a block of keystream and of Poly1305. -/
def midSession : State :=
  { inState .authEnc with
    session :=
      { zeroKeySession with
        cipher := { zeroKeySession.cipher with cs := zeroKeySession.cipher.cs.set 12 3, ko := 1 }
        auth := { zeroKeySession.auth with pn := 1 }
        dataLength := 65 } }

/-- A host that does not read. -/
def notReading (s : State) : State := { s with ports := { s.ports with rspReady := false } }

/-- Whatever the command, a core in a session state the rules allow answers a next state. -/
theorem answers_next (i : Instr) (s : State)
    (hf : (∃ r p, i = .finish r p) → s.st = .uninit ∨ s.st = .finished ∨ (finishAuth s.session).pn = 0) :
    ∃ t, exec i s = .next t := by
  rcases Laws.exec_cases i s with ⟨e, -, he⟩ | ⟨-, he⟩ | ⟨hc, ⟨r, p, rfl⟩, hp, -⟩
  · exact ⟨_, he⟩
  · exact ⟨_, he⟩
  · have := ((Laws.check_none_iff _ _ _ _).1 hc).2.2.1
    have h0 : (finishAuth s.session).pn = 0 := by
      rcases hf ⟨r, p, rfl⟩ with h | h | h
      · simp [permitted, commandOf, h] at this
      · simp [permitted, commandOf, h] at this
      · exact h
    rw [polyFinal, if_pos h0] at hp
    simp at hp

theorem witness_ResetHoldsTheCore :
    (assertReset midSession).ports.rst = true ∧ (assertReset midSession).ports.offered = [] := by decide +kernel

theorem witness_ResetDiscardsFrameAndSession : midSession.ports.rst = false := rfl

theorem witness_DecodeOfEncode :
    (Instr.init 0xffffff []).wellFormed = true ∧ (Instr.tagcmp 0 (List.replicate 33 7)).wellFormed = true := by decide

theorem witness_DecodedCommandKeepsItsFrame :
    decode [0xabcdef02, 5, 0, 0x04030201, 0xffffff05, 6] = .instr (.encrypt 0xabcdef [1, 2, 3, 4, 5]) [6] ∧
      decode [6, 0, 0] = .instr (.abort 0 []) [] := by decide

theorem witness_PackedByteLanes :
    ([1, 2, 3, 4, 5] : List Byte).length < 2 ^ 64 ∧ 7 < 4 * ((([1, 2, 3, 4, 5] : List Byte).length + 3) / 4) := by decide

theorem witness_StepRunsTheDecodedCommand :
    let s := offerWords [0x106, 0, 0, 9] midSession
    s.ports.rst = false ∧ NotStalled s ∧ s.parser.ph = .hdr0 ∧ decode s.ports.cmdIn = .instr (.abort 1 []) [9] := by
  decide +kernel

/-- The smallest and the largest of each range of reserved opcodes. -/
theorem witness_ReservedOpcodeStep :
    ∀ k : Fin 3,
      let hw0 : Word := #v[0x100, 0x107, 0xff][k]
      let s := offerWords [hw0, 1, 0, 9, 8] midSession
      s.ports.rst = false ∧ s.parser.ph = .hdr0 ∧ splitFrame s.ports.cmdIn = some (⟨hw0, 1, 0, [9]⟩, [8]) ∧
        NotStalled s ∧ (hw0.extractLsb' 0 8 = 0 ∨ 7 ≤ (hw0.extractLsb' 0 8).toNat) := by decide +kernel

theorem witness_PartialFrameWaits :
    let none := midSession
    let header := offerWords [2] midSession
    let payload := offerWords [2, 8, 0, 1] midSession
    none.ports.rst = false ∧ NotStalled none ∧ none.ports.cmdIn = [] ∧ none.ports.rspOut = [] ∧ header.ports.cmdIn ≠ [] ∧ header.parser.ph = .hdr0 ∧
      decode header.ports.cmdIn = .incompleteFrame ∧ decode payload.ports.cmdIn = .incompleteFrame := by decide +kernel

theorem witness_SplitArrivalIsTheSame :
    let s := offerWords [2, 8] midSession
    fetch s = .waiting (afterAccept { ph := .hdr2, hw0 := 2, hw1 := 8, hw2 := 0, rem := 0, pw := [] } none [] s) ∧
      ([0] : List Word) ≠ [] := by decide +kernel

theorem witness_StreamRunsCommandsInOrder :
    let is : List Instr := [.encrypt 1 [5], .tagcmp 0 (List.replicate 32 0), .abort 0 []]
    let s := offerWords (is.flatMap encode ++ [4]) midSession
    s.ports.rst = false ∧ s.parser.ph = .hdr0 ∧ s.ports.rspReady = true ∧ (∀ i ∈ is, i.wellFormed = true) ∧
      s.ports.cmdIn = is.flatMap encode ++ [4] ∧ (execAll is s).isSome = true := by decide +kernel

/-- Any command that answers, for the statements whose one premise is `exec i s = .next t` (EveryCommandFrame,
TagcmpFrame), and with well-formed commands for OneResponsePerCommand. -/
theorem witness_OneResponsePerCommand (r : BitVec 24) (p : List Byte) (st : SessionState) :
    (∃ t, exec (.init r p) (inState st) = .next t) ∧ (∃ t, exec (.encrypt r p) (inState st) = .next t) ∧
      (∃ t, exec (.decrypt r p) (inState st) = .next t) ∧ (∃ t, exec (.finish r p) (inState st) = .next t) ∧
      (∃ t, exec (.tagcmp r p) (inState st) = .next t) ∧ (∃ t, exec (.abort r p) (inState st) = .next t) ∧
      (Instr.encrypt 0xffffff [1]).wellFormed = true := by
  have h : (finishAuth (inState st).session).pn = 0 := by
    show (finishAuth Session.reset).pn = 0
    decide +kernel
  exact ⟨answers_next _ _ fun _ => .inr (.inr h), answers_next _ _ fun _ => .inr (.inr h),
    answers_next _ _ fun _ => .inr (.inr h), answers_next _ _ fun _ => .inr (.inr h),
    answers_next _ _ fun _ => .inr (.inr h), answers_next _ _ fun _ => .inr (.inr h), by decide⟩

/-- Every row and column of the table, with no reserved bit and a legal length. -/
theorem witness_OutcomeTable (st : SessionState) :
    (inState st).st = st ∧ (∃ t, exec (.init 0 (zeros 44)) (inState st) = .next t) ∧ 44 ≤ (zeros 44).length ∧
      (∃ t, exec (.encrypt 0 []) (inState st) = .next t) ∧ (∃ t, exec (.decrypt 0 []) (inState st) = .next t) ∧
      (∃ t, exec (.finish 0 []) (inState st) = .next t) ∧
      (∃ t, exec (.tagcmp 0 (zeros 32)) (inState st) = .next t) ∧ (zeros 32).length = 32 ∧
      (∃ t, exec (.abort 0 []) (inState st) = .next t) := by
  obtain ⟨h, -⟩ := witness_OneResponsePerCommand 0 (zeros 44) st
  obtain ⟨-, h2, h3, h4, -, h6, -⟩ := witness_OneResponsePerCommand 0 [] st
  obtain ⟨-, -, -, -, h5, -⟩ := witness_OneResponsePerCommand 0 (zeros 32) st
  exact ⟨rfl, h, by decide, h2, h3, h4, h5, by decide, h6⟩

/-- A host that does not read, and one response word more than the core can hold. -/
def unread : State :=
  { notReading midSession with
    ports := { (notReading midSession).ports with rspOut := List.replicate (Config.rspBufWords + 1) 7 } }

/-- A stalled core, a data command with output and a command without, both with a total beyond what the core holds. -/
theorem witness_UnreadResponsesStall :
    unread.ports.rst = false ∧ unread.ports.rspReady = false ∧ Config.rspBufWords < unread.ports.rspOut.length ∧
      (∃ t, exec (.encrypt 0 [1]) unread = .next t) ∧
      responseLength (check .encrypt 0 1 unread.st) (.encrypt 0 [1]) ≠ 0 ∧
      (∃ t, exec (.abort 0 []) unread = .next t) ∧
      responseLength (check .abort 0 0 unread.st) (.abort 0 []) = 0 := by
  refine ⟨rfl, rfl, ?_, answers_next _ _ (by simp), by decide, answers_next _ _ (by simp), by decide⟩
  show _ < (List.replicate (Config.rspBufWords + 1) (7 : Word)).length
  rw [List.length_replicate]; omega

/-- Words on their way to a host that does not read, and to one that does, with no command word offered. -/
theorem witness_ReadingFreesTheCore :
    let s := { midSession with ports := { midSession.ports with rspOut := [7, 8] } }
    unread.ports.rst = false ∧ unread.ports.rspReady = false ∧ (notReading s).ports.rspOut = [7, 8] ∧
      s.ports.rst = false ∧ s.ports.rspReady = true ∧ s.ports.cmdIn = [] ∧ s.ports.rspOut ≠ [] ∧
      cmdReady s = true := ⟨rfl, rfl, rfl, rfl, rfl, rfl, by decide +kernel, by decide +kernel⟩

theorem witness_ReservedBitsError :
    let s := offerWords [0x80000002, 0, 0, 5] midSession
    (Instr.encrypt 0x800000 []).rsvd ≠ 0 ∧ NotStalled s ∧ s.ports.rst = false ∧ s.parser.ph = .hdr0 ∧
      decode s.ports.cmdIn = .instr (.encrypt 0x800000 []) [5] := by decide +kernel

/-- One length on each side of every legal length. -/
theorem witness_BadLengthError :
    (zeros 43).length < 44 ∧ (zeros 1).length ≠ 0 ∧ (zeros 31).length ≠ 32 ∧ (zeros 33).length ≠ 32 := by decide

theorem witness_SequenceError :
    44 ≤ (zeros 44).length ∧ midSession.st = .authEnc ∧ (inState .finished).st = .finished := ⟨by decide, rfl, rfl⟩

theorem witness_DirectionError :
    midSession.st = .authEnc ∧ (inState .authDec).st = .authDec := ⟨rfl, rfl⟩

theorem witness_ErrorChangesNothing :
    (nextState (exec (.abort 1 []) midSession)).map responses =
      some (responses midSession ++ responseWords (statusWord 6 (some .reservedBits) false .authEnc) []) := by
  decide +kernel

theorem witness_InitPerformed :
    (zeros 32).length = 32 ∧ (zeros 12).length = 12 ∧ (inState .finished).st = .finished :=
  ⟨by decide, by decide, rfl⟩

theorem witness_EncryptPerformed : midSession.st = .authEnc ∧ initialized.st = .initialized := ⟨rfl, rfl⟩

theorem witness_DecryptPerformed :
    (inState .authDec).st = .authDec ∧ initialized.st = .initialized := ⟨rfl, rfl⟩

theorem witness_FinishPerformed :
    Live midSession ∧ LiveSession midSession.session ∧ Live initialized ∧ LiveSession initialized.session := by
  decide +kernel

theorem witness_TagcmpPerformed : (zeros 16).length = 16 := by decide

theorem witness_FinishFaultsOnPartialBlock :
    let s := { midSession with session := { midSession.session with dataLength := 0 } }
    Live s ∧ s.session.auth.pn.val ≠ s.session.dataLength.toNat % 16 := by decide +kernel

theorem witness_DataCommandFrame :
    (∃ t, exec (.encrypt 0 [1, 2]) midSession = .next t) ∧ (∃ t, exec (.decrypt 0 [1]) (inState .authDec) = .next t) :=
  ⟨answers_next _ _ (by simp), answers_next _ _ (by simp)⟩

theorem witness_OnlyInitLoadsTheKey :
    (∀ r p, Instr.tagcmp 0 (zeros 32) ≠ .init r p) ∧ (nextState (exec (.tagcmp 0 (zeros 32)) midSession)).isSome = true :=
  ⟨by simp, by decide +kernel⟩

theorem witness_HeaderWordsHideTheSession :
    let s := { initialized with st := .authEnc }
    s.st = midSession.st ∧ s.ports = midSession.ports ∧ s.session ≠ midSession.session ∧
      (nextState (exec (.abort 0 []) s)).isSome = true ∧ (nextState (exec (.abort 0 []) midSession)).isSome = true := by
  decide +kernel

theorem witness_ScInitLayout : (zeros 32).length = 32 ∧ (zeros 12).length = 12 := by decide

theorem witness_QuarterRoundInPlace : ([3, 4, 9, 14] : List (Fin 16)).Nodup := by decide

theorem witness_DisjointQuarterRoundsCommute : ([0, 5, 10, 15, 3, 4, 9, 14] : List (Fin 16)).Nodup := by decide

/-- The cursor at its last buffered byte and at the end. -/
theorem witness_ApplyByteIsLazy :
    let c := { StreamCipher.reset with ko := 63 }
    c.ko.val < 64 ∧ StreamCipher.reset.ko.val = 64 := by decide

theorem witness_KeystreamByPosition : zeroKeySession.cipher.ko.val = 64 := by decide +kernel

theorem witness_ApplyCountsBlocks : 0 < midSession.session.cipher.ko.val ∧ 0 < StreamCipher.reset.ko.val := by
  decide +kernel

theorem witness_PolyInitClamps : (zeros 32).length = 32 := by decide

theorem witness_WholeBlocksAbsorbed : AuthAccumulator.reset.pn.val = 0 ∧ (zeros 32).length % 16 = 0 := by decide

theorem witness_PartialBlockKept :
    AuthAccumulator.reset.pn.val = 0 ∧ 14 < (zeros 31).length % 16 ∧ AuthAccumulator.reset.h < 2 ^ 130 - 5 := by decide

theorem witness_PolyFinalTag :
    let a := { AuthAccumulator.reset with pn := 15 }
    AuthAccumulator.reset.pn.val = 0 ∧ a.pn.val ≠ 0 := by decide

/-- A state the rules allow, in a session and in the middle of a frame (for HostActsKeepTheInvariant and
StepNeverLeavesTheRules). -/
theorem witness_StepNeverLeavesTheRules :
    CoreInv midSession ∧ CoreInv { midSession with parser := ⟨.pay, 2, 8, 0, 1, [7]⟩ } := by
  constructor <;>
    exact ⟨by decide +kernel, by decide +kernel, fun h => absurd rfl h, by decide +kernel⟩

theorem witness_StepKeepsTheInvariant :
    CoreInv (offerWords [2, 1, 0, 9] midSession) ∧ ∃ t, step (offerWords [2, 1, 0, 9] midSession) = .next t := by
  refine ⟨witness_StepNeverLeavesTheRules.1, ?_⟩
  have h : step (offerWords [2, 1, 0, 9] midSession) = exec (.encrypt 0 [9])
      (afterAccept ⟨.hdr0, 2, 1, 0, 0, []⟩ (some 9) [] (offerWords [2, 1, 0, 9] midSession)) := rfl
  rw [h]
  exact answers_next _ _ (by simp)

theorem witness_SessionStateMoves :
    let s := offerWords [6, 0, 0] midSession
    s.ports.rst = false ∧ (nextState (step s)).map (·.st) = some .uninit := by decide +kernel

theorem witness_ChunkingDoesNotMatter :
    let chunks : List (List Byte) := [[1, 2], [], [3]]
    chunks ≠ [] ∧ (execAll (chunks.map (.encrypt 0)) initialized).isSome = true ∧
      (nextState (exec (.encrypt 0 chunks.flatten) initialized)).isSome = true ∧ initialized.st = .initialized := by
  decide +kernel

/-- For SealSession, OpenSession and RoundTrip. -/
theorem witness_SealSession :
    (zeros 32).length = 32 ∧ (zeros 12).length = 12 ∧ State.reset.st = .uninit := by decide

theorem witness_InstancesAreIndependent :
    let y : System := { instances := [offerWords [6, 0, 0] midSession, offerWords [2] State.reset] }
    let x : System := { instances := [assertReset State.reset, offerWords [2] State.reset] }
    (0 : Nat) ≠ 1 ∧ (y.stepAt 1).isSome = true ∧ (y.stepAt 0).isSome = true ∧ x.instances[1]? = y.instances[1]? ∧
      x ≠ y := by decide +kernel

theorem witness_MnemonicsAssembleToTheirFrame :
    (zeros 32).length = 32 ∧ (zeros 12).length = 12 ∧ (zeros 16).length = 16 ∧ 44 + (zeros 3).length < 2 ^ 64 ∧
      ([] : List Byte).length < 2 ^ 64 := by decide

theorem witness_DisassemblyReassembles :
    ∀ i ∈ ([.finish 0 [], .finish 0 [1], .abort 7 [], .init 0 (zeros 44)] : List Instr), i.wellFormed = true := by decide

end Sys2Proof.Tests
end

section
/-! The values after hardware reset (10_state.md R39). -/

namespace Sys2Proof.Proofs

open Sys2Proof.Machine

@[simp] theorem streamCipher_reset_cs (i : Nat) (hi : i < 16) : StreamCipher.reset.cs[i] = 0 :=
  Vector.getElem_replicate hi

@[simp] theorem streamCipher_reset_ks (i : Nat) (hi : i < 64) : StreamCipher.reset.ks[i] = 0 :=
  Vector.getElem_replicate hi

@[simp] theorem authAccumulator_reset_pb (i : Nat) (hi : i < 16) : AuthAccumulator.reset.pb[i] = 0 :=
  Vector.getElem_replicate hi

/-- Settles O1: the arrays `cs`, `ks` and `pb` are all 0 at every index, and each other register is read off
`State.reset`. -/
theorem resetValues : Obligations.ResetValues := by
  have hcs : ∀ i : Fin 16, State.reset.session.cipher.cs[i] = 0 := fun i => streamCipher_reset_cs i i.isLt
  have hks : ∀ i : Fin 64, State.reset.session.cipher.ks[i] = 0 := fun i => streamCipher_reset_ks i i.isLt
  have hpb : ∀ i : Fin 16, State.reset.session.auth.pb[i] = 0 := fun i => authAccumulator_reset_pb i i.isLt
  exact ⟨rfl, rfl, hcs, hks, rfl, rfl, rfl, rfl, hpb, rfl, rfl, rfl, rfl, rfl, rfl, rfl, rfl⟩

end Sys2Proof.Proofs
end

section
/-! The words of a response frame (30_encoding.md R91, R92). -/

namespace Sys2Proof.Proofs

open Sys2Proof.Machine Sys2Proof.Laws

/-- Byte `i` of the payload in its lane of the packed words, and 0 in the lanes past the payload (R92). -/
theorem packWords_lane (b : List Byte) (i : Nat) (h : i < 4 * wordCount b.length) :
    ((packWords b).getD (i / 4) 0).extractLsb' (8 * (i % 4)) 8 = b.getD i 0 := by
  rw [getD_laneBytes _ _ (by rwa [length_packWords]), laneBytes_packWords]
  by_cases hi : i < b.length
  · exact List.getD_append _ _ _ _ hi
  · rw [List.getD_append_right _ _ _ _ (by omega), List.getD_eq_default b _ (by omega)]
    exact List.getD_replicate _ (by omega)

/-- Settles O8: the header words are literal in `responseWords`, and the payload words are `packWords`, whose lanes are
the payload padded with zeros. -/
theorem packedByteLanes : Obligations.PackedByteLanes := by
  intro status b hb
  refine ⟨length_responseWords status b, rfl, BitVec.toNat_ofNat _ _, ?_, fun i hi => ?_⟩
  · have hdiv : b.length / 2 ^ 32 < 2 ^ 32 := by omega
    exact (BitVec.toNat_ofNat _ _).trans (Nat.mod_eq_of_lt hdiv)
  · rw [Nat.add_comm 3]
    exact packWords_lane b i hi

end Sys2Proof.Proofs
end

section
/-! A step on a whole frame that is consumed and ends in an error (30_encoding.md R81, 60_exceptions.md R262). -/

namespace Sys2Proof.Proofs

open Sys2Proof.Machine Sys2Proof.Laws

/-! Taking a whole frame from `HDR0` -/

/-- The parser once the frame `f` is complete (R81). -/
def parserAfter (f : Frame) : Parser := { ph := .hdr0, hw0 := f.hw0, hw1 := f.hw1, hw2 := f.hw2, rem := 0, pw := [] }

@[simp] theorem parserAfter_ph (f : Frame) : (parserAfter f).ph = .hdr0 := rfl

/-- The word-by-word parser takes the frame that `splitFrame` finds. -/
theorem acceptFrame_of_splitFrame {ws rest : List Word} {f : Frame} {p : Parser} (hp : p.ph = .hdr0)
    (h : splitFrame ws = some (f, rest)) : acceptFrame ws p = (parserAfter f, some f, rest) := by
  obtain ⟨hw0, hw1, hw2, pw⟩ := f
  obtain ⟨tl, rfl, hpw, rfl, hlen⟩ := splitFrame_some h
  simp only [Frame.len] at hpw hlen ⊢
  rw [acceptFrame_header _ _ _ _ _ hp, if_neg (by omega), hpw, parserAfter]

/-- A core that is not stalled takes a whole offered frame. -/
theorem fetch_of_splitFrame {s : State} {f : Frame} {rest : List Word} (hr : s.ports.rst = false) (hs : NotStalled s)
    (hp : s.parser.ph = .hdr0) (h : splitFrame s.ports.cmdIn = some (f, rest)) :
    fetch s = fetchedFrom (parserAfter f, some f, rest) s := by
  have hne : s.ports.cmdIn ≠ [] := by
    intro e
    simp [e, splitFrame] at h
  rw [fetch_of s hr hs hne, acceptFrame_of_splitFrame hp h]

/-- A step on a frame with a defined opcode executes its command. -/
theorem step_of_command {s : State} {f : Frame} {rest : List Word} {i : Instr} (hr : s.ports.rst = false)
    (hs : NotStalled s) (hp : s.parser.ph = .hdr0) (h : splitFrame s.ports.cmdIn = some (f, rest))
    (hi : decodeFrame f = some i) : step s = exec i (afterAccept (parserAfter f) f.pw.getLast? rest s) := by
  simp only [step, fetch_of_splitFrame hr hs hp h, fetchedFrom, hi]

/-- A step on a frame with a reserved opcode raises `ILLEGAL_OPCODE` (R89). -/
theorem step_of_reserved {s : State} {f : Frame} {rest : List Word} (hr : s.ports.rst = false) (hs : NotStalled s)
    (hp : s.parser.ph = .hdr0) (h : splitFrame s.ports.cmdIn = some (f, rest)) (hi : decodeFrame f = none) :
    step s = raiseError (opcField f.hw0) .illegalOpcode (afterAccept (parserAfter f) f.pw.getLast? rest s) := by
  simp only [step, fetch_of_splitFrame hr hs hp h, fetchedFrom, hi, illegalOpcode]

/-- The frame behind a decoded command. -/
theorem splitFrame_of_decode {ws rest : List Word} {i : Instr} (h : decode ws = .instr i rest) :
    ∃ f, splitFrame ws = some (f, rest) ∧ decodeFrame f = some i := by
  obtain ⟨a, b, c, tl, rfl, hlen, hi, rfl⟩ := decode_instr h
  exact ⟨_, if_neg hlen, hi⟩

/-! Ending in an error -/

/-- A response of at most three words leaves no command word held back (R311). -/
theorem deliver_offered_of_short (ws : List Word) (p : Ports) (h : ws.length ≤ 3) :
    (deliver ws p).offered = p.cmdIn := by
  have hlast : (deliver ws p).cmdLast = none := by simp [deliver, h]
  rw [Ports.offered, hlast, deliver_cmdIn]
  rfl

/-- An error raised on an accepted frame: the words left are those after it, and its effect is its response (R262). -/
theorem raiseError_afterAccept (opc : Byte) (e : ErrCode) (p : Parser) (last : Option Word) (rest : List Word)
    (s : State) :
    ∃ t, raiseError opc e (afterAccept p last rest s) = .next t ∧ t.st = s.st ∧ t.session = s.session ∧
      t.parser = p ∧ t.ports.offered = rest ∧ responses t = responses s ++ errorResponse opc e s.st := by
  refine ⟨_, raiseError_eq opc e _, rfl, rfl, rfl, ?_, ?_⟩
  · exact deliver_offered_of_short (errorResponse opc e s.st) _ le_rfl
  · rw [responses_deliver rfl, responses_afterAccept, afterAccept_st]

/-! Reserved opcodes (R89) -/

/-- The opcodes the map gives no command: 0x00 and 0x07 to 0xFF. -/
theorem instrOf_eq_none_iff (opc : Byte) (r : BitVec 24) (p : List Byte) :
    instrOf opc r p = none ↔ opc = 0 ∨ 7 ≤ opc.toNat := by
  have hzero : opc = 0 ↔ opc.toNat = 0 := BitVec.toNat_inj (y := 0).symm
  rw [hzero]
  unfold instrOf
  split
  case h_7 =>
    refine iff_of_true rfl ?_
    simp only [imp_false] at *
    omega
  all_goals exact iff_of_false (Option.some_ne_none _) (by omega)

/-- Settles O10: the frame decodes to no command, so the step raises `ILLEGAL_OPCODE` on the accepted frame. -/
theorem reservedOpcodeStep : Obligations.ReservedOpcodeStep := by
  intro s f rest hr hs hp hf hopc
  have hnone : decodeFrame f = none := (instrOf_eq_none_iff _ _ _).2 hopc
  obtain ⟨t, ht, hst, hsession, hparser, hrest, hresp⟩ :=
    raiseError_afterAccept (opcField f.hw0) .illegalOpcode (parserAfter f) f.pw.getLast? rest s
  refine ⟨t, (step_of_reserved hr hs hp hf hnone).trans ht, hst, hsession, ?_, hrest, hresp⟩
  rw [hparser, parserAfter_ph]

/-! Reserved bits (R90) -/

/-- Check 2 of R263 comes before the length, the state and the direction. -/
theorem check_reservedBits (c : Command) {r : BitVec 24} (n : Nat) (st : SessionState) (h : r ≠ 0) :
    check c r n st = some .reservedBits := if_pos h

/-- Settles O17: the reserved bits are checked first, whatever the length and `st`, so the command raises
`RESERVED_BITS` and does nothing else; on a step, on the accepted frame. -/
theorem reservedBitsError : Obligations.ReservedBitsError := by
  intro i s rest hi
  have hcheck (u : State) : check (commandOf i) i.rsvd i.payload.length u.st = some .reservedBits :=
    check_reservedBits _ _ _ hi
  refine ⟨⟨_, exec_error (hcheck s), rfl, rfl, rfl, responses_deliver rfl⟩, fun hr hs hp hd => ?_⟩
  obtain ⟨f, hf, hfi⟩ := splitFrame_of_decode hd
  obtain ⟨t, ht, hst, hsession, -, hrest, hresp⟩ :=
    raiseError_afterAccept i.opc .reservedBits (parserAfter f) f.pw.getLast? rest s
  refine ⟨t, ?_, hst, hsession, hrest, hresp⟩
  rw [step_of_command hr hs hp hf hfi, exec_eq, hcheck]
  exact ht

end Sys2Proof.Proofs
end

section
/-! QUARTERROUND as assignments to the working array (40_stream_cipher.md R124). -/

namespace Sys2Proof.Proofs

open Sys2Proof.Machine Sys2Proof.Laws

/-- The working array `x` with the words at `a`, `b`, `c` and `d` replaced: what every stage of QUARTERROUND is. -/
def withWords (a b c d : Fin 16) (p q r s : Word) (x : Vector Word 16) : Vector Word 16 :=
  (((x.set a p).set b q).set c r).set d s

section
variable {a b c d : Fin 16} {p q r s v : Word} {x : Vector Word 16}

theorem withWords_get (i : Nat) (hi : i < 16) :
    (withWords a b c d p q r s x)[i] =
      if d.val = i then s else if c.val = i then r else if b.val = i then q else if a.val = i then p else x[i] := by
  simp only [withWords, Vector.getElem_set]

theorem withWords_self : withWords a b c d x[a] x[b] x[c] x[d] x = x := by
  ext1 i hi
  rw [withWords_get]
  grind

/-- On distinct indices each of the four words is read back. -/
theorem withWords_reads (h : [a, b, c, d].Nodup) :
    (withWords a b c d p q r s x)[a] = p ∧ (withWords a b c d p q r s x)[b] = q ∧
    (withWords a b c d p q r s x)[c] = r ∧ (withWords a b c d p q r s x)[d] = s := by
  refine ⟨?_, ?_, ?_, ?_⟩ <;> rw [Fin.getElem_fin, withWords_get] <;> grind

/-- On distinct indices an assignment to one of the four words leaves the other three. -/
theorem withWords_writes (h : [a, b, c, d].Nodup) :
    (withWords a b c d p q r s x).set a v = withWords a b c d v q r s x ∧
    (withWords a b c d p q r s x).set b v = withWords a b c d p v r s x ∧
    (withWords a b c d p q r s x).set c v = withWords a b c d p q v s x ∧
    (withWords a b c d p q r s x).set d v = withWords a b c d p q r v x := by
  refine ⟨?_, ?_, ?_, ?_⟩ <;> ext1 i hi <;> rw [Vector.getElem_set, withWords_get, withWords_get] <;> grind

end

theorem exists_withWords (a b c d : Fin 16) (x : Vector Word 16) :
    ∃ p q r s y, x = withWords a b c d p q r s y :=
  ⟨x[a], x[b], x[c], x[d], x, withWords_self.symm⟩

/-- Settles O37: every assignment reads and writes `withWords`, so both sides are the same four words in the same
array. -/
theorem quarterRoundInPlace : Obligations.QuarterRoundInPlace := by
  intro a b c d x x1 x2 x3 x4 x5 x6 x7 x8 hnodup h1 h2 h3 h4 h5 h6 h7 h8
  obtain ⟨p, q, r, s, y, rfl⟩ := exists_withWords a b c d x
  subst h1 h2 h3 h4 h5 h6 h7 h8
  simp only [quarterRound, quarterWords, rotl32_eq, Nat.reduceLT, withWords_reads hnodup, withWords_writes hnodup]

end Sys2Proof.Proofs
end

section
/-! CTR_INC (40_stream_cipher.md R128). -/

namespace Sys2Proof.Proofs

open Sys2Proof.Machine

theorem ctrInc_of_carry {cs : Vector Word 16} (h : cs[12] + 1 = 0) :
    ctrInc cs = (cs.set 12 0).set 13 (cs[13] + 1) := by
  simp only [ctrInc, Vector.getElem_set_self, Vector.getElem_set_ne _ _ (show 12 ≠ 13 by decide), h, if_pos]

theorem ctrInc_of_noCarry {cs : Vector Word 16} (h : cs[12] + 1 ≠ 0) : ctrInc cs = cs.set 12 (cs[12] + 1) := by
  simp only [ctrInc, Vector.getElem_set_self, if_neg h]

theorem ctrInc_value (cs : Vector Word 16) :
    (ctrInc cs)[12].toNat + 2 ^ 32 * (ctrInc cs)[13].toNat = (cs[12].toNat + 2 ^ 32 * cs[13].toNat + 1) % 2 ^ 64 := by
  by_cases h : cs[12] + 1 = 0
  · rw [ctrInc_of_carry h, Vector.getElem_set_self, Vector.getElem_set_ne _ _ (by decide), Vector.getElem_set_self]
    bv_omega
  · rw [ctrInc_of_noCarry h, Vector.getElem_set_self, Vector.getElem_set_ne _ _ (by decide)]
    bv_omega

theorem ctrInc_other (cs : Vector Word 16) (i : Nat) (hi : i < 16) (h12 : 12 ≠ i) (h13 : 13 ≠ i) :
    (ctrInc cs)[i] = cs[i] := by
  by_cases h : cs[12] + 1 = 0
  · rw [ctrInc_of_carry h, Vector.getElem_set_ne _ _ h13, Vector.getElem_set_ne _ _ h12]
  · rw [ctrInc_of_noCarry h, Vector.getElem_set_ne _ _ h12]

/-- Settles O40: word 12 wraps to 0 exactly where it carries into word 13. -/
theorem counterIncrement : Obligations.CounterIncrement :=
  fun cs => ⟨ctrInc_value cs, fun j h12 h13 =>
    ctrInc_other cs j j.isLt (Fin.val_ne_of_ne h12.symm) (Fin.val_ne_of_ne h13.symm)⟩

end Sys2Proof.Proofs
end

section
/-! SC_INIT and its constants (40_stream_cipher.md R120, R121). -/

namespace Sys2Proof.Proofs

open Sys2Proof.Machine Sys2Proof.Laws

theorem sigma_eq_ascii : sigma = "expand 32-byte k".toList.map fun c => BitVec.ofNat 8 c.toNat := by decide

/-- Settles O35: `sigma` is the ASCII text, and the four values are evaluated. -/
theorem constantWords : Obligations.ConstantWords := by
  refine ⟨fun i => ?_, by decide, by decide, by decide, by decide⟩
  rw [constWord, sigma_eq_ascii]

theorem scInit_constWords (key nonce : List Byte) (c : StreamCipher) (i : Fin 4) :
    (scInit key nonce c).cs[i.val] = constWord i := by
  fin_cases i <;> rfl

theorem scInit_keyWords (key nonce : List Byte) (c : StreamCipher) (i : Fin 8) :
    (scInit key nonce c).cs[4 + i.val] = le32 key (4 * i) := by
  fin_cases i <;> rfl

theorem scInit_nonceWords (key nonce : List Byte) (c : StreamCipher) (i : Fin 3) :
    (scInit key nonce c).cs[13 + i.val] = le32 nonce (4 * i) := by
  fin_cases i <;> rfl

/-- Settles O36: each word is read off SC_INIT, and `le32` is the little-endian number of four bytes. -/
theorem scInitLayout : Obligations.ScInitLayout := by
  intro key nonce c hkey hnonce
  refine ⟨scInit_constWords key nonce c, fun i => ?_, rfl, fun i => ?_, rfl, scInit_ks key nonce c⟩
  · rw [scInit_keyWords, le32_toNat _ _ (by omega)]
  · rw [scInit_nonceWords, le32_toNat _ _ (by omega)]

end Sys2Proof.Proofs
end

section
/-! BLOCK (40_stream_cipher.md R125, R127). -/

namespace Sys2Proof.Proofs

open Sys2Proof.Machine Sys2Proof.Laws

theorem block_get (cs : Vector Word 16) (i : Nat) (hi : i < 64) :
    (block cs)[i] = (blockWord cs ⟨i / 4, by omega⟩).extractLsb' (8 * (i % 4)) 8 := by
  unfold block
  exact Vector.getElem_ofFn hi

theorem block_get_lane (cs : Vector Word 16) (w : Fin 16) (k : Fin 4) :
    (block cs)[4 * w.val + k.val] = (blockWord cs w).extractLsb' (8 * k) 8 := by
  rw [block_get]
  congr 3 <;> omega

theorem doubleRounds_eq_foldl (n : Nat) (x : Vector Word 16) :
    doubleRounds n x = (List.range n).foldl (fun x _ => doubleRound x) x := by
  induction n generalizing x with
  | zero => rfl
  | succ n ih => rw [doubleRounds, ih, List.range_succ_eq_map, List.foldl_cons, List.foldl_map]

/-! The rounds keep the all-zero state -/

theorem quarterRound_zero (a b c d : Fin 16) :
    quarterRound a b c d (Vector.replicate 16 0) = Vector.replicate 16 0 := by
  ext1 i hi
  simp [quarterRound_get, quarterWords, rotl32]

theorem doubleRound_zero : doubleRound (Vector.replicate 16 0) = Vector.replicate 16 0 := by
  simp only [doubleRound, columnRound, diagonalRound, quarterRound_zero]

theorem doubleRounds_zero (n : Nat) : doubleRounds n (Vector.replicate 16 0) = Vector.replicate 16 0 := by
  induction n with
  | zero => rfl
  | succ n ih => rw [doubleRounds, doubleRound_zero, ih]

theorem blockWord_zero (i : Fin 16) : blockWord (Vector.replicate 16 0) i = 0 := by
  rw [blockWord, doubleRounds_zero, Fin.getElem_fin, Vector.getElem_replicate]
  exact BitVec.add_zero 0

/-- Settles O39: each byte is read off BLOCK, whose eight QUARTERROUNDs a double round are R125's; the zero state is a
fixed point of the rounds. -/
theorem blockOfEveryState : Obligations.BlockOfEveryState := by
  constructor
  · intro cs x w k
    rw [block_get_lane, blockWord, doubleRounds_eq_foldl]
    rfl
  · intro i
    rw [Fin.getElem_fin, block_get, blockWord_zero]
    exact BitVec.extractLsb'_zero

end Sys2Proof.Proofs
end

section
/-! APPLY_BYTE (40_stream_cipher.md R130). -/

namespace Sys2Proof.Proofs

open Sys2Proof.Machine Sys2Proof.Laws

/-- Settles O41: below 64 the byte comes from the buffer, and at 64 from the block that REGEN (R129) makes. -/
theorem applyByteIsLazy : Obligations.ApplyByteIsLazy := by
  intro b c
  constructor
  · intro h
    rw [applyByte_buffered b c h]
    exact ⟨rfl, rfl, rfl, rfl⟩
  · intro h
    rw [applyByte_regen b c (by omega)]
    exact ⟨rfl, rfl, rfl, rfl⟩

end Sys2Proof.Proofs
end

section
/-! POLY_INIT (41_authenticator.md R160). -/

namespace Sys2Proof.Proofs

open Sys2Proof.Machine

/-- Bit `i` of a little-endian number is bit `i mod 8` of byte `i / 8` (R9). -/
theorem testBit_leNat (b : List Byte) (i : Nat) : (leNat b).testBit i = (b.getD (i / 8) 0).getLsbD (i % 8) := by
  induction b generalizing i with
  | nil => simp [leNat]
  | cons x b ih =>
    have hle : leNat (x :: b) = 2 ^ 8 * leNat b + x.toNat := Nat.add_comm _ _
    rw [hle, Nat.testBit_two_pow_mul_add _ x.isLt]
    split_ifs with hi
    · rw [Nat.div_eq_of_lt hi, Nat.mod_eq_of_lt hi, List.getD_cons_zero, BitVec.testBit_toNat]
    · obtain ⟨k, rfl⟩ : ∃ k, i = k + 8 := ⟨i - 8, by omega⟩
      rw [Nat.add_sub_cancel, ih, Nat.add_div_right k (by decide), Nat.add_mod_right, List.getD_cons_succ]

theorem getD_slice (b : List Byte) {i j k : Nat} (h : i + k < j) : (slice i j b).getD k 0 = b.getD (i + k) 0 := by
  have hk : k < j - i := by omega
  simp [slice, List.getD_eq_getElem?_getD, hk]

/-- Bit `i` of the 128-bit number that the 16 bytes from `lo` up hold. -/
theorem getLsbD_leNat_slice (b : List Byte) (lo i : Nat) (hi : i < 128) :
    (BitVec.ofNat 128 (leNat (slice lo (lo + 16) b))).getLsbD i = (b.getD (lo + i / 8) 0).getLsbD (i % 8) := by
  rw [BitVec.getLsbD_ofNat, decide_eq_true hi, Bool.true_and, testBit_leNat, getD_slice b (by omega)]

/-- The bits that the clamp mask keeps: all but the top 4 of bytes 3, 7, 11, 15 and the low 2 of bytes 4, 8, 12. -/
theorem getLsbD_clampMask : ∀ i : Fin 128, clampMask.getLsbD i.val =
    !decide ((i.val / 8) % 4 = 3 ∧ 4 ≤ i.val % 8 ∨ (i.val / 8) % 4 = 0 ∧ 0 < i.val / 8 ∧ i.val % 8 < 2) := by
  decide

/-- Settles O44: each half of `otk` is read bit by bit as a little-endian number, and `r` keeps the bits of the clamp
mask. -/
theorem polyInitClamps : Obligations.PolyInitClamps := by
  intro otk a _
  refine ⟨fun i => ?_, fun i => getLsbD_leNat_slice otk 16 i i.isLt, rfl, rfl⟩
  have hr := getLsbD_leNat_slice otk 0 i i.isLt
  rw [Nat.zero_add, Nat.zero_add] at hr
  rw [polyInit, BitVec.getLsbD_and, hr, getLsbD_clampMask]

end Sys2Proof.Proofs
end

section
/-! POLY_UPDATE on whole blocks (41_authenticator.md R161, R162). -/

namespace Sys2Proof.Proofs

open Sys2Proof.Machine Sys2Proof.Laws

/-- From no partial block, `n` whole blocks are absorbed one after the other. -/
theorem polyUpdate_wholeBlocks_h (n : Nat) (m : List Byte) (a : AuthAccumulator) (hpn : a.pn.val = 0)
    (hm : m.length = 16 * n) : (polyUpdate m a).h = polyBlocks a.r n m a.h := by
  induction n generalizing m a with
  | zero =>
    obtain rfl : m = [] := List.eq_nil_of_length_eq_zero hm
    rfl
  | succ n ih =>
    have hfirst : (m.take 16).length = 16 := by rw [List.length_take]; omega
    have hrest : (m.drop 16).length = 16 * n := by rw [List.length_drop]; omega
    have hpn' : (polyUpdate (m.take 16) a).pn.val = 0 := by rw [polyUpdate_pn, hpn, hfirst]
    calc (polyUpdate m a).h
        = (polyUpdate (m.drop 16) (polyUpdate (m.take 16) a)).h := by
          rw [← polyUpdate_append, List.take_append_drop]
      _ = polyBlocks a.r n (m.drop 16) (absorbValue a.r a.h (m.take 16)) := by
          rw [ih _ _ hpn' hrest, polyUpdate_r, polyUpdate_block _ _ hpn hfirst]
      _ = polyBlocks a.r (n + 1) m a.h := rfl

/-- From no partial block, whole blocks change `h` and the bytes of `pb` that are not valid (R29). -/
theorem polyUpdate_wholeBlocks (n : Nat) (m : List Byte) (a : AuthAccumulator) (hpn : a.pn.val = 0)
    (hm : m.length = 16 * n) :
    polyUpdate m a = { h := polyBlocks a.r n m a.h, r := a.r, s := a.s, pb := (polyUpdate m a).pb, pn := 0 } := by
  have hpn' : (polyUpdate m a).pn = 0 := Fin.ext (by rw [polyUpdate_pn, hpn, hm, Fin.val_zero]; omega)
  rw [← polyUpdate_wholeBlocks_h n m a hpn hm, ← polyUpdate_r m a, ← polyUpdate_s m a, ← hpn']

/-- A byte sequence and its pad are whole blocks (R203, R211). -/
theorem length_append_pad16 (b : List Byte) : (b ++ pad16 b.length).length = 16 * ((b.length + 15) / 16) := by
  rw [List.length_append, pad16, length_zeros]
  omega

end Sys2Proof.Proofs
end

section
/-! KEYGEN and the session registers that INIT leaves (42_aead_commands.md R201 to R203). -/

namespace Sys2Proof.Proofs

open Sys2Proof.Machine Sys2Proof.Laws

theorem apply_singleton (b : Byte) (c : StreamCipher) :
    apply [b] c = ([(applyByte b c).1], (applyByte b c).2) := rfl

/-- APPLY over 64 bytes from a used-up buffer makes one block and uses it up (R129, R130). -/
theorem apply_wholeBlock (d : List Byte) (c : StreamCipher) (hko : c.ko.val = 64) (hd : d.length = 64) :
    (apply d c).2 = { cs := ctrInc c.cs, ks := block c.cs, ko := 64 } := by
  obtain ⟨front, b, rfl⟩ : ∃ front b, d = front ++ [b] :=
    d.eq_nil_or_concat'.resolve_left (List.ne_nil_of_length_eq_add_one hd)
  have hfront : front.length = 63 := by simpa using hd
  obtain ⟨-, hstands⟩ := standsAt_apply front (standsAt_zero hko)
  rw [hfront] at hstands
  obtain ⟨hko', hcs, hks⟩ := hstands.2 (by decide)
  rw [apply_append, apply_singleton, applyByte_buffered _ _ (by omega), useByte, hcs, hks]
  simp only [hko']
  rfl

theorem slice_zero (n : Nat) (b : List Byte) : slice 0 n b = b.take n := rfl

theorem oneTimeKey_eq_slice (key nonce : List Byte) (c : StreamCipher) :
    slice 0 32 (apply (zeros 64) (scInit key nonce c)).1 = oneTimeKey key nonce := by
  obtain ⟨hout, -⟩ := standsAt_apply (zeros 64) (standsAt_zero (c := scInit key nonce c) rfl)
  rw [hout, xorKeystream_zeros, slice_zero, ← List.map_take, List.take_range]
  simp only [Nat.zero_add]
  rfl

theorem length_oneTimeKey (key nonce : List Byte) : (oneTimeKey key nonce).length = 32 := by
  rw [oneTimeKey, List.length_map, List.length_range]

theorem keygen_scInit (key nonce : List Byte) (n : Session) :
    keygen { n with cipher := scInit key nonce n.cipher } =
      { n with
        cipher := { cs := ctrInc (initialWords key nonce), ks := block (initialWords key nonce), ko := 64 }
        auth := polyInit (oneTimeKey key nonce) n.auth } := by
  unfold keygen
  rw [oneTimeKey_eq_slice, apply_wholeBlock (zeros 64) (scInit key nonce n.cipher) rfl (length_zeros 64)]
  rfl

/-- POLY_INIT's registers before any block, with the halves of a 32-byte key (R160). -/
theorem polyInit_eq (otk : List Byte) (a : AuthAccumulator) (h : otk.length = 32) :
    polyInit otk a =
      { h := 0, r := BitVec.ofNat 128 (leNat (otk.take 16)) &&& clampMask
        s := BitVec.ofNat 128 (leNat (otk.drop 16)), pb := a.pb, pn := 0 } := by
  have hs : slice 16 32 otk = otk.drop 16 := List.take_of_length_le (by simp [h])
  rw [polyInit, slice_zero, hs]

theorem initSession_eq (key nonce aad : List Byte) (n : Session) :
    initSession key nonce aad n =
      { cipher := { cs := ctrInc (initialWords key nonce), ks := block (initialWords key nonce), ko := 64 }
        auth := polyUpdate (aad ++ pad16 aad.length) (polyInit (oneTimeKey key nonce) n.auth)
        authLength := BitVec.ofNat 64 aad.length
        dataLength := 0 } := by
  rw [initSession, keygen_scInit, absorbAad, polyUpdate_append]

end Sys2Proof.Proofs
end

section
/-! The commands performed (42_aead_commands.md). -/

namespace Sys2Proof.Proofs

open Sys2Proof.Machine Sys2Proof.Laws

/-- What a command that passes the checks answers, if it is not a FINISH with a partial block left over (R164). -/
theorem answers_performed {i : Instr} {s : State}
    (hcheck : check (commandOf i) i.rsvd i.payload.length s.st = none)
    (hfinal : (∃ r p, i = .finish r p) → polyFinal (finishAuth s.session) ≠ none) :
    Answers i s (stAfter i s) (sessionAfter i s) (okResponse i.opc (eqBit i) (stAfter i s) (output i s)) := by
  rcases exec_cases i s with ⟨e, he, -⟩ | ⟨-, hexec⟩ | ⟨-, hfin, hnone, -⟩
  · rw [hcheck] at he
    cases he
  · exact ⟨_, hexec, performed_st i s, performed_session i s, performed_parser i s, responses_performed i s⟩
  · exact absurd hnone (hfinal hfin)

/-- Settles O28: ABORT passes every check in every `st`. -/
theorem abortPerformed : Obligations.AbortPerformed := by
  intro s
  exact answers_performed ((check_none_iff _ _ _ _).2 ⟨rfl, rfl, rfl, rfl⟩) (by simp)

/-- Settles O27: TAGCMP passes every check in every `st`, and CT_EQUAL is equality of the tags. -/
theorem tagcmpPerformed : Obligations.TagcmpPerformed := by
  intro t1 t2 s h1 h2
  have hlen : legalLen .tagcmp (t1 ++ t2).length = true := by simp [legalLen, h1, h2]
  have heq : eqBit (.tagcmp 0 (t1 ++ t2)) = decide (t1 = t2) := by
    rw [eqBit, tag1Of_append t1 t2 h1, tag2Of_append t1 t2 h1 h2, ctEqual_eq t1 t2 (h1.trans h2.symm)]
  rw [← heq]
  exact answers_performed ((check_none_iff _ _ _ _).2 ⟨rfl, hlen, rfl, rfl⟩) (by simp)

/-- `dataLength` after `len` more bytes, modulo 2^64 (R214). -/
theorem addDataLength_eq (len : Nat) (n : Session) :
    addDataLength len n = BitVec.ofNat 64 (n.dataLength.toNat + len) := by
  rw [addDataLength, BitVec.ofNat_add, BitVec.ofNat_toNat, BitVec.setWidth_eq]

/-- Settles O24: ENCRYPT passes the checks in INITIALIZED and AUTH_ENC, at any length. -/
theorem encryptPerformed : Obligations.EncryptPerformed := by
  intro data s hst
  have hpermitted : permitted .encrypt s.st = true ∧ wrongDirection .encrypt s.st = false := by
    rcases hst with h | h <;> rw [h] <;> decide
  rw [← addDataLength_eq]
  exact answers_performed ((check_none_iff _ _ _ _).2 ⟨rfl, rfl, hpermitted⟩) (by simp)

/-- Settles O25: DECRYPT passes the checks in INITIALIZED and AUTH_DEC, at any length. -/
theorem decryptPerformed : Obligations.DecryptPerformed := by
  intro data s hst
  have hpermitted : permitted .decrypt s.st = true ∧ wrongDirection .decrypt s.st = false := by
    rcases hst with h | h <;> rw [h] <;> decide
  rw [← addDataLength_eq]
  exact answers_performed ((check_none_iff _ _ _ _).2 ⟨rfl, rfl, hpermitted⟩) (by simp)

/-- FINISH's tag with its absorptions written out (R163, R211). -/
theorem polyTag_finishAuth (n : Session) :
    polyTag (finishAuth n) =
      toLE 16 (((polyUpdate (lengthBlock n) (polyUpdate (pad16 n.dataLength.toNat) n.auth)).h % polyP
        + n.auth.s.toNat) % 2 ^ 128) := by
  unfold finishAuth polyTag
  rw [polyUpdate_s (lengthBlock n), polyUpdate_s (pad16 n.dataLength.toNat)]

/-- Settles O26: in a live session `pn` is `dataLength mod 16`, so the pad completes the last block, the length block
is whole, and POLY_FINAL gives the tag. -/
theorem finishPerformed : Obligations.FinishPerformed := by
  intro s hlive hsession
  obtain ⟨hpn, -⟩ := hsession
  have hwhole : (finishAuth s.session).pn = 0 := Fin.ext (by rw [finishAuth_pn, hpn, Fin.val_zero]; omega)
  have hpermitted : permitted .finish s.st = true := decide_eq_true hlive
  have htag := polyTag_finishAuth s.session
  rw [lengthBlock, pad16, polyP] at htag
  rw [← htag]
  exact answers_performed ((check_none_iff _ _ _ _).2 ⟨rfl, rfl, hpermitted, rfl⟩) (by simp [polyFinal, hwhole])

/-- Settles O23: key, nonce and AAD are read back from the payload, KEYGEN uses up the first block, and the AAD with its
pad is absorbed as whole blocks. -/
theorem initPerformed : Obligations.InitPerformed := by
  intro key nonce aad s hkey hnonce hst
  have hlen : legalLen .init (key ++ nonce ++ aad).length = true :=
    decide_eq_true (by simp only [List.length_append]; omega)
  have hpermitted : permitted .init s.st = true := decide_eq_true hst
  have h := answers_performed (i := .init 0 (key ++ nonce ++ aad)) (s := s)
    ((check_none_iff _ _ _ _).2 ⟨rfl, hlen, hpermitted, rfl⟩) (by simp)
  rw [sessionAfter, keyOf_append key nonce aad hkey, nonceOf_append key nonce aad hkey hnonce,
    aadOf_append key nonce aad hkey hnonce, initSession_eq,
    polyUpdate_wholeBlocks _ _ _ rfl (length_append_pad16 aad), polyInit_eq _ _ (length_oneTimeKey key nonce)] at h
  exact ⟨_, h⟩

end Sys2Proof.Proofs
end

section
/-! The decoder against the encoder (30_encoding.md sections 2 and 3). -/

namespace Sys2Proof.Proofs

open Sys2Proof.Machine Sys2Proof.Laws

/-! Decoding an encoded command -/

/-- The opcode map gives every command back from its own fields (R86). -/
theorem instrOf_own_fields : ∀ i : Instr, instrOf i.opc i.rsvd i.payload = some i
  | .init r p => OpcodeMap.init r p
  | .encrypt r p => OpcodeMap.encrypt r p
  | .decrypt r p => OpcodeMap.decrypt r p
  | .finish r p => OpcodeMap.finish r p
  | .tagcmp r p => OpcodeMap.tagcmp r p
  | .abort r p => OpcodeMap.abort r p

/-- The frame that carries a command. -/
def frameOf (i : Instr) : Frame :=
  ⟨hw0Of i.opc i.rsvd, BitVec.ofNat 32 i.payload.length, BitVec.ofNat 32 (i.payload.length / 2 ^ 32),
    packWords i.payload⟩

theorem frameOf_len {i : Instr} (h : i.wellFormed = true) : (frameOf i).len = i.payload.length :=
  lenField_of _ ((wellFormed_iff i).1 h)

theorem frameOf_payload {i : Instr} (h : i.wellFormed = true) : (frameOf i).payload = i.payload := by
  rw [Frame.payload, frameOf_len h, frameOf, payloadOf_packWords]

theorem decodeFrame_frameOf {i : Instr} (h : i.wellFormed = true) : decodeFrame (frameOf i) = some i := by
  rw [decodeFrame, frameOf_payload h, frameOf, opcField_hw0Of, rsvdField_hw0Of, instrOf_own_fields]

theorem splitFrame_encode_append {i : Instr} (h : i.wellFormed = true) (rest : List Word) :
    splitFrame (encode i ++ rest) = some (frameOf i, rest) := splitFrame_encode i rest h

/-- Settles O5: the front of the stream is the command's frame, whose fields are the command's own, and the opcode map
gives the command back from them. -/
theorem decodeOfEncode : Obligations.DecodeOfEncode := by
  intro i rest h
  rw [decode, splitFrame_encode_append h]
  simp only [decodeFrame_frameOf h]

/-! What a decoded command keeps of its frame -/

theorem ofNat_lenField_low (a b : Word) : BitVec.ofNat 32 (lenField a b) = a := by
  apply BitVec.eq_of_toNat_eq
  rw [BitVec.toNat_ofNat, lenField]
  omega

theorem ofNat_lenField_high (a b : Word) : BitVec.ofNat 32 (lenField a b / 2 ^ 32) = b := by
  apply BitVec.eq_of_toNat_eq
  rw [BitVec.toNat_ofNat, lenField]
  omega

/-- The payload of a frame with all its payload words has LEN bytes (R84, R85). -/
theorem length_payloadOf {len : Nat} {pw : List Word} (h : wordCount len ≤ pw.length) :
    (payloadOf len pw).length = len := by
  rw [payloadOf, List.length_take, length_laneBytes]
  simp only [wordCount] at h
  omega

theorem laneBytes_append (a b : List Word) : laneBytes (a ++ b) = laneBytes a ++ laneBytes b := List.flatMap_append

/-- The first LEN lanes stand in the first `ceil(LEN / 4)` words. -/
theorem payloadOf_take_wordCount (len : Nat) (pw : List Word) :
    payloadOf len (pw.take (wordCount len)) = (laneBytes pw).take len := by
  by_cases h : wordCount len ≤ pw.length
  · conv_rhs => rw [← List.take_append_drop (wordCount len) pw]
    have hlen : len ≤ (laneBytes (pw.take (wordCount len))).length := by
      rw [length_laneBytes, List.length_take, Nat.min_eq_left h, wordCount]
      omega
    rw [laneBytes_append, List.take_append_of_le_length hlen]
    rfl
  · rw [List.take_of_length_le (by omega)]
    rfl

/-- Settles O6: the decoded command has the fields of its frame, so its three header words are the frame's, and LEN is
the length of its payload. -/
theorem decodedCommandKeepsItsFrame : Obligations.DecodedCommandKeepsItsFrame := by
  intro ws i rest h
  obtain ⟨a, b, c, tl, rfl, hlen, hi, rfl⟩ := decode_instr h
  obtain ⟨hopc, hrsvd, hpayload⟩ := instrOf_fields hi
  have hpl : i.payload = payloadOf (lenField b c) (tl.take (wordCount (lenField b c))) := hpayload
  have hn : i.payload.length = lenField b c := by
    rw [hpl, length_payloadOf (by rw [List.length_take]; omega)]
  refine ⟨?_, ?_, ?_, ?_, ?_⟩
  · rw [wellFormed_iff, hn]
    exact lenField_lt b c
  · rw [encode, frameWords, hopc, hrsvd, hn, ofNat_lenField_low, ofNat_lenField_high, hw0Of_fields]
    rfl
  · rw [hn, hpl, payloadOf_take_wordCount]
    rfl
  · rw [hn, Nat.add_comm]
    rfl
  · rw [hn, List.length_drop]
    simp only [List.length_cons]
    omega

/-! Literal words and the reserved opcodes -/

/-- Settles O4: eight word sequences, each evaluated. -/
theorem headerWordsDecode : Obligations.HeaderWordsDecode := by
  unfold Obligations.HeaderWordsDecode
  decide

/-- Settles O7: a frame decodes to no command exactly where the opcode map has none for its opcode field. -/
theorem reservedOpcodesAreRejected : Obligations.ReservedOpcodesAreRejected :=
  fun f => instrOf_eq_none_iff (opcField f.hw0) (rsvdField f.hw0) f.payload

/-- Settles O9: the word-by-word parser takes the frame that `decode` reads, and the step executes its command on what
accepting the frame leaves. -/
theorem stepRunsTheDecodedCommand : Obligations.StepRunsTheDecodedCommand := by
  intro s i rest hr hs hp h
  obtain ⟨f, hf, hi⟩ := splitFrame_of_decode h
  obtain ⟨tl, hws, hpw, hrest, hlen⟩ := splitFrame_some hf
  have hn : i.payload.length = f.len := by
    obtain ⟨-, -, hpayload⟩ := instrOf_fields hi
    rw [hpayload, Frame.payload, length_payloadOf (by rw [hpw, List.length_take]; omega)]
  rw [step_of_command hr hs hp hf hi, hn, hpw, hws]
  rfl

end Sys2Proof.Proofs
end

section
/-! The status word and the one response frame of a command (30_encoding.md R93 to R95). -/

namespace Sys2Proof.Proofs

open Sys2Proof.Machine Sys2Proof.Laws

/-! The status word's fields -/

section
variable (opc : Byte) (err : Option ErrCode) (eq : Bool) (st : SessionState)

theorem statusWord_opc : (statusWord opc err eq st).extractLsb' 0 8 = opc := by
  ext i hi
  rw [BitVec.getElem_extractLsb', getLsbD_statusWord _ _ _ _ _ (by omega), if_pos (by omega), Nat.zero_add,
    BitVec.getLsbD_eq_getElem]

theorem statusWord_err : (statusWord opc err eq st).extractLsb' 8 4 = errField err := by
  ext i hi
  rw [BitVec.getElem_extractLsb', getLsbD_statusWord _ _ _ _ _ (by omega), if_neg (by omega), if_pos (by omega),
    Nat.add_sub_cancel_left, BitVec.getLsbD_eq_getElem]

theorem statusWord_eq : (statusWord opc err eq st).extractLsb' 12 1 = BitVec.ofBool eq := by
  ext i hi
  obtain rfl : i = 0 := by omega
  rw [BitVec.getElem_extractLsb', getLsbD_statusWord _ _ _ _ _ (by omega), if_neg (by omega), if_neg (by omega),
    if_pos (by omega)]
  exact BitVec.getElem_ofBool.symm

theorem statusWord_zero_15_13 : (statusWord opc err eq st).extractLsb' 13 3 = 0 := by
  ext i hi
  rw [BitVec.getElem_extractLsb', getLsbD_statusWord _ _ _ _ _ (by omega), if_neg (by omega), if_neg (by omega),
    if_neg (by omega), if_pos (by omega)]
  simp

theorem statusWord_st : (statusWord opc err eq st).extractLsb' 16 3 = st.code := by
  ext i hi
  rw [BitVec.getElem_extractLsb', getLsbD_statusWord _ _ _ _ _ (by omega), if_neg (by omega), if_neg (by omega),
    if_neg (by omega), if_neg (by omega), if_pos (by omega), Nat.add_sub_cancel_left, BitVec.getLsbD_eq_getElem]

theorem statusWord_zero_31_19 : (statusWord opc err eq st).extractLsb' 19 13 = 0 := by
  ext i hi
  rw [BitVec.getElem_extractLsb', getLsbD_statusWord _ _ _ _ _ (by omega), if_neg (by omega), if_neg (by omega),
    if_neg (by omega), if_neg (by omega), if_neg (by omega)]
  simp

end

/-- Settles O14: each field is read off the status word bit by bit, and the codes are literal. -/
theorem statusWordLayout : Obligations.StatusWordLayout :=
  ⟨fun opc err eq st => ⟨statusWord_opc opc err eq st, statusWord_err opc err eq st, statusWord_eq opc err eq st,
      statusWord_zero_15_13 opc err eq st, statusWord_st opc err eq st, statusWord_zero_31_19 opc err eq st⟩,
    ⟨rfl, rfl, rfl, rfl, rfl, rfl⟩, rfl, rfl, rfl, rfl, rfl⟩

/-- Two status words that are equal have the same error code. -/
theorem errField_eq_of_statusWord_eq {o o' : Byte} {e e' : Option ErrCode} {q q' : Bool} {st st' : SessionState}
    (h : statusWord o e q st = statusWord o' e' q' st') : errField e = errField e' := by
  rw [← statusWord_err o e q st, h, statusWord_err]

theorem errField_le (e : Option ErrCode) : (errField e).toNat ≤ 5 := by
  rcases e with _ | _ | _ | _ | _ | _ <;> decide

/-! One command, one response frame -/

/-- What executing a command leaves: an error response and nothing else changed, or the command performed. -/
theorem exec_next_effect {i : Instr} {s t : State} (h : exec i s = .next t) :
    t.parser = s.parser ∧ ∃ ws, t.ports = deliver ws s.ports ∧ responses t = responses s ++ ws ∧
      ((∃ e, check (commandOf i) i.rsvd i.payload.length s.st = some e ∧ ws = errorResponse i.opc e s.st ∧
        t.st = s.st ∧ t.session = s.session) ∨
      (check (commandOf i) i.rsvd i.payload.length s.st = none ∧ ws = okWords i s ∧
        t.st = stAfter i s ∧ t.session = sessionAfter i s)) := by
  rcases exec_next h with ⟨e, he, rfl⟩ | ⟨hc, rfl⟩
  · exact ⟨rfl, _, rfl, responses_deliver rfl, .inl ⟨e, he, rfl, rfl, rfl⟩⟩
  · exact ⟨performed_parser i s, _, performed_ports i s, responses_performed i s,
      .inr ⟨hc, rfl, performed_st i s, performed_session i s⟩⟩

/-- Only TAGCMP sets EQ (R93). -/
theorem eqBit_eq_true {i : Instr} (h : eqBit i = true) : ∃ r p, i = .tagcmp r p := by
  cases i with
  | tagcmp r p => exact ⟨r, p, rfl⟩
  | _ => cases h

/-- A payload that LEN can say leaves an RLEN below 2^64 (R95). -/
theorem rlen_lt {i : Instr} (h : i.wellFormed = true) : rlen i < 2 ^ 64 := by
  rw [wellFormed_iff] at h
  cases i with
  | encrypt r p => exact h
  | decrypt r p => exact h
  | _ => simp only [rlen]; decide

/-- `rw2` is RLEN's high half (R91). -/
theorem toNat_ofNat_div {n : Nat} (h : n < 2 ^ 64) : (BitVec.ofNat 32 (n / 2 ^ 32)).toNat = n / 2 ^ 32 := by
  rw [BitVec.toNat_ofNat]
  omega

/-- Settles O15: an error response has RLEN 0 and EQ 0, and a performed command's is `okWords`. -/
theorem oneResponsePerCommand : Obligations.OneResponsePerCommand := by
  intro i s t hwf h
  obtain ⟨-, ws, -, hresp, ⟨e, -, rfl, hst, -⟩ | ⟨-, rfl, hst, -⟩⟩ := exec_next_effect h
  · refine ⟨some e, false, 0, 0, [], ?_, errField_le _, by simp, rfl, rfl, rfl, by simp⟩
    rw [hresp, hst]
    rfl
  · have hlen : (output i s).length = rlen i := length_output i s
    refine ⟨none, eqBit i, BitVec.ofNat 32 (output i s).length, BitVec.ofNat 32 ((output i s).length / 2 ^ 32),
      output i s, ?_, errField_le _, fun h => ⟨rfl, eqBit_eq_true h⟩, BitVec.toNat_ofNat _ _, ?_,
      length_packWords _, ?_⟩
    · rw [hresp, hst]
      rfl
    · exact toNat_ofNat_div (hlen ▸ rlen_lt hwf)
    · rw [hlen, if_neg (by simp)]
      cases i <;> rfl

/-! Errors (R262) -/

theorem errField_injective {e e' : ErrCode} (h : errField (some e) = errField (some e')) : e = e' := by
  revert h
  cases e <;> cases e' <;> decide

theorem errField_some_ne_none (e : ErrCode) : errField none ≠ errField (some e) := by
  cases e <;> decide

/-- Settles O21: the status word's ERR field says which response it is, so the command ended in that error. -/
theorem errorChangesNothing : Obligations.ErrorChangesNothing := by
  intro i s t err eq st payload h hresp
  obtain ⟨hparser, ws, -, hws, ⟨e, -, rfl, hst, hsession⟩ | ⟨-, rfl, -, -⟩⟩ := exec_next_effect h
  all_goals
    have hwords := List.append_cancel_left (hws.symm.trans hresp)
    have hstatus := errField_eq_of_statusWord_eq (List.cons.inj hwords).1
  · obtain rfl := errField_injective hstatus
    exact ⟨hst, hsession, hparser, hws⟩
  · exact absurd hstatus (errField_some_ne_none err)

/-- What a command that its checks reject answers. -/
theorem answers_error {i : Instr} {s : State} {e : ErrCode}
    (h : check (commandOf i) i.rsvd i.payload.length s.st = some e) :
    Answers i s s.st s.session (errorResponse i.opc e s.st) :=
  ⟨_, exec_error h, rfl, rfl, rfl, responses_deliver rfl⟩

/-- Check 3 of R263. -/
theorem check_badLength {c : Command} {n : Nat} (st : SessionState) (h : legalLen c n = false) :
    check c 0 n st = some .badLength := by
  rw [check, if_neg (not_not_intro rfl), if_pos h]

/-- Check 4 of R263. -/
theorem check_sequence {c : Command} {n : Nat} {st : SessionState} (h : legalLen c n = true)
    (h' : permitted c st = false) : check c 0 n st = some .sequence := by
  rw [check, if_neg (not_not_intro rfl), if_neg (by simp [h]), if_pos h']

/-- Check 5 of R263. -/
theorem check_direction {c : Command} {n : Nat} {st : SessionState} (h : legalLen c n = true)
    (h' : permitted c st = true) (h'' : wrongDirection c st = true) : check c 0 n st = some .direction := by
  rw [check, if_neg (not_not_intro rfl), if_neg (by simp [h]), if_neg (by simp [h']), if_pos h'']

/-- Settles O18: the length is checked before `st`. -/
theorem badLengthError : Obligations.BadLengthError := by
  intro p s
  refine ⟨fun h => ?_, fun h => ?_, fun h => ?_, fun h => ?_⟩
  · exact answers_error (check_badLength s.st (decide_eq_false (Nat.not_le.2 h)))
  all_goals exact answers_error (check_badLength s.st (decide_eq_false h))

/-- Settles O19: with a legal length, `st` decides. -/
theorem sequenceError : Obligations.SequenceError := by
  intro p s
  refine ⟨fun hlen hst => ?_, fun hst => ⟨?_, ?_, ?_⟩⟩
  · have hpermitted : permitted .init s.st = false := by rcases hst with h | h | h <;> rw [h] <;> rfl
    exact answers_error (check_sequence (decide_eq_true hlen) hpermitted)
  all_goals
    refine answers_error (check_sequence rfl ?_)
    rcases hst with h | h <;> rw [h] <;> rfl

/-- Settles O20: ENCRYPT and DECRYPT have every length, and the other direction's state is one they are permitted in. -/
theorem directionError : Obligations.DirectionError := by
  intro p s
  refine ⟨fun h => ?_, fun h => ?_⟩
  all_goals exact answers_error (check_direction rfl (by rw [h]; rfl) (by rw [h]; rfl))

/-! The outcome table (R264) -/

theorem endsIn_of_check {i : Instr} {s t : State} {e : ErrCode} (h : exec i s = .next t)
    (hc : check (commandOf i) i.rsvd i.payload.length s.st = some e) : EndsIn e i s t := by
  obtain ⟨t', ht', hst, -, -, hresp⟩ := answers_error hc
  cases h.symm.trans ht'
  exact ⟨hst, hresp⟩

theorem okTo_of_check {i : Instr} {s t : State} (h : exec i s = .next t)
    (hc : check (commandOf i) i.rsvd i.payload.length s.st = none) : OkTo (stAfter i s) i s t := by
  obtain ⟨-, ws, -, hresp, ⟨e, he, -⟩ | ⟨-, rfl, hst, -⟩⟩ := exec_next_effect h
  · rw [hc] at he
    cases he
  · exact ⟨hst, eqBit i, output i s, hresp⟩

/-- Settles O22: with no encoding error, checks 4 and 5 of R263 read the table's row and column. -/
theorem outcomeTable : Obligations.OutcomeTable := by
  intro i s t hrsvd h hlen
  have hlegal : legalLen (commandOf i) i.payload.length = true := by
    cases i with
    | encrypt | decrypt => rfl
    | _ => exact decide_eq_true hlen
  have hok (h4 : permitted (commandOf i) s.st = true) (h5 : wrongDirection (commandOf i) s.st = false) :=
    okTo_of_check h ((check_none_iff _ _ _ _).2 ⟨hrsvd, hlegal, h4, h5⟩)
  have hsequence (h4 : permitted (commandOf i) s.st = false) : EndsIn .sequence i s t :=
    endsIn_of_check h (by rw [hrsvd]; exact check_sequence hlegal h4)
  have hdirection (h4 : permitted (commandOf i) s.st = true) (h5 : wrongDirection (commandOf i) s.st = true) :
      EndsIn .direction i s t := endsIn_of_check h (by rw [hrsvd]; exact check_direction hlegal h4 h5)
  clear hlen
  generalize hst : s.st = st at hok hsequence hdirection ⊢
  cases i with
  | init r p =>
    cases st with
    | uninit | finished => exact hok rfl rfl
    | _ => exact hsequence rfl
  | encrypt r p =>
    cases st with
    | uninit | finished => exact hsequence rfl
    | authDec => exact hdirection rfl rfl
    | _ => exact hok rfl rfl
  | decrypt r p =>
    cases st with
    | uninit | finished => exact hsequence rfl
    | authEnc => exact hdirection rfl rfl
    | _ => exact hok rfl rfl
  | finish r p =>
    cases st with
    | uninit | finished => exact hsequence rfl
    | _ => exact hok rfl rfl
  | tagcmp r p => exact hst ▸ hok rfl rfl
  | abort r p => exact hok rfl rfl

end Sys2Proof.Proofs
end

section
/-! What a command leaves unchanged (10_state.md sections 2, 6 and 7). -/

namespace Sys2Proof.Proofs

open Sys2Proof.Machine Sys2Proof.Laws

/-- Settles O30: a command acts on the ports by delivering its response. -/
theorem everyCommandFrame : Obligations.EveryCommandFrame := by
  intro i s t h
  obtain ⟨hparser, ws, hports, -⟩ := exec_next_effect h
  rw [hports]
  exact ⟨hparser, rfl, rfl, rfl, rfl, ⟨ws, rfl⟩, deliver_cmdLast ws s.ports⟩

/-- Settles O33: TAGCMP's `st` and session registers are the old ones, performed or not. -/
theorem tagcmpFrame : Obligations.TagcmpFrame := by
  intro r p s t h
  obtain ⟨hparser, ws, -, -, ⟨e, -, -, hst, hsession⟩ | ⟨-, -, hst, hsession⟩⟩ := exec_next_effect h
  all_goals exact ⟨hst, hsession, hparser⟩

/-! Cipher words that are not the counter's -/

theorem applyByte_otherWords (b : Byte) (c : StreamCipher) (j : Nat) (hj : j < 16) (h12 : 12 ≠ j) (h13 : 13 ≠ j) :
    (applyByte b c).2.cs[j] = c.cs[j] := by
  by_cases h : c.ko.val < 64
  · rw [applyByte_buffered b c h]
    rfl
  · rw [applyByte_regen b c h]
    exact ctrInc_other c.cs j hj h12 h13

/-- APPLY changes no constant, key or nonce word but the counter's two (R128, R129). -/
theorem apply_otherWords (d : List Byte) (c : StreamCipher) (j : Nat) (hj : j < 16) (h12 : 12 ≠ j) (h13 : 13 ≠ j) :
    (apply d c).2.cs[j] = c.cs[j] := by
  induction d generalizing c with
  | nil => rfl
  | cons b d ih => exact (ih (applyByte b c).2).trans (applyByte_otherWords b c j hj h12 h13)

/-! ENCRYPT and DECRYPT differ in the bytes they authenticate only (R206, R209) -/

/-- The session registers after a data command with payload `d` that authenticates the bytes `x`. -/
def dataSession (x d : List Byte) (n : Session) : Session :=
  { n with cipher := (apply d n.cipher).2, auth := polyUpdate x n.auth, dataLength := addDataLength d.length n }

theorem encryptSession_eq (d : List Byte) (n : Session) :
    encryptSession d n = dataSession (apply d n.cipher).1 d n := rfl

theorem decryptSession_eq (d : List Byte) (n : Session) : decryptSession d n = dataSession d d n := rfl

/-- The registers that ENCRYPT and DECRYPT leave alone (R36). -/
def SameFixedRegisters (n m : Session) : Prop :=
  m.auth.r = n.auth.r ∧ m.auth.s = n.auth.s ∧ m.authLength = n.authLength ∧
    ∀ j : Fin 16, j ≠ 12 → j ≠ 13 → m.cipher.cs[j] = n.cipher.cs[j]

theorem sameFixedRegisters_self (n : Session) : SameFixedRegisters n n := ⟨rfl, rfl, rfl, fun _ _ _ => rfl⟩

theorem dataSession_sameFixed (x d : List Byte) (n : Session) : SameFixedRegisters n (dataSession x d n) :=
  ⟨polyUpdate_r _ _, polyUpdate_s _ _, rfl, fun j h12 h13 =>
    apply_otherWords d n.cipher j j.isLt (Fin.val_ne_of_ne h12.symm) (Fin.val_ne_of_ne h13.symm)⟩

/-- Settles O31: an error changes no register, and the two performed commands keep `SameFixedRegisters`. -/
theorem dataCommandFrame : Obligations.DataCommandFrame := by
  rintro i s t hi h
  suffices SameFixedRegisters s.session t.session from this
  obtain ⟨-, ws, -, -, ⟨e, -, -, -, hsession⟩ | ⟨-, -, -, hsession⟩⟩ := exec_next_effect h
  · rw [hsession]
    exact sameFixedRegisters_self _
  · rw [hsession]
    obtain ⟨r, p, rfl | rfl⟩ := hi
    · rw [sessionAfter, encryptSession_eq]
      exact dataSession_sameFixed _ p s.session
    · rw [sessionAfter, decryptSession_eq]
      exact dataSession_sameFixed p p s.session

/-- Settles O32: FINISH and ABORT zero the session registers, and the others but INIT keep those words. -/
theorem onlyInitLoadsTheKey : Obligations.OnlyInitLoadsTheKey := by
  intro i s t hi h
  obtain ⟨-, ws, -, -, ⟨e, -, -, -, hsession⟩ | ⟨-, -, -, hsession⟩⟩ := exec_next_effect h
  · rw [hsession]
    exact .inr fun _ _ _ => rfl
  · rw [hsession]
    cases i with
    | init r p => exact absurd rfl (hi r p)
    | encrypt r p =>
      obtain ⟨-, -, -, hcs⟩ := dataSession_sameFixed (apply p s.session.cipher).1 p s.session
      exact .inr hcs
    | decrypt r p =>
      obtain ⟨-, -, -, hcs⟩ := dataSession_sameFixed p p s.session
      exact .inr hcs
    | finish r p | abort r p => exact .inl rfl
    | tagcmp r p => exact .inr fun _ _ _ => rfl

/-! What a response shows of the session registers (R35, R263) -/

/-- A performed command's three header words are told by its opcode, EQ, the new `st` and RLEN. -/
theorem okWords_header (i : Instr) (s : State) :
    (okWords i s).take 3 =
      [statusWord i.opc none (eqBit i) (stAfter i s), BitVec.ofNat 32 (rlen i), BitVec.ofNat 32 (rlen i / 2 ^ 32)] := by
  rw [← length_output i s]
  rfl

theorem length_okWords (i : Instr) (s : State) : (okWords i s).length = 3 + wordCount (rlen i) := by
  rw [okWords, length_responseWords, length_output]

theorem stAfter_congr {s1 s2 : State} (i : Instr) (h : s1.st = s2.st) : stAfter i s1 = stAfter i s2 := by
  cases i with
  | tagcmp r p => exact h
  | _ => rfl

/-- INIT, TAGCMP and ABORT have a response without a payload. -/
theorem okWords_congr {s1 s2 : State} (i : Instr) (h : s1.st = s2.st)
    (hi : ∀ r p, i ≠ .encrypt r p ∧ i ≠ .decrypt r p ∧ i ≠ .finish r p) : okWords i s1 = okWords i s2 := by
  have hout (s : State) : output i s = [] := by
    cases i with
    | init r p | tagcmp r p | abort r p => rfl
    | encrypt r p => exact absurd rfl (hi r p).1
    | decrypt r p => exact absurd rfl (hi r p).2.1
    | finish r p => exact absurd rfl (hi r p).2.2
  rw [okWords, okWords, stAfter_congr i h, hout, hout]

/-- Settles O34: the checks and the header words read `st` only, and the two commands end alike. -/
theorem headerWordsHideTheSession : Obligations.HeaderWordsHideTheSession := by
  intro i s1 s2 t1 t2 hst hports h1 h2
  have hresp : responses s1 = responses s2 := by rw [responses, responses, hports]
  obtain ⟨-, ws1, hp1, hr1, hcase1⟩ := exec_next_effect h1
  obtain ⟨-, ws2, hp2, hr2, hcase2⟩ := exec_next_effect h2
  suffices t1.st = t2.st ∧ ws1.length = ws2.length ∧ ws1.take 3 = ws2.take 3 ∧
      ((∀ r p, i ≠ .encrypt r p ∧ i ≠ .decrypt r p ∧ i ≠ .finish r p) → ws1 = ws2) by
    obtain ⟨hst', hlen, htake, hall⟩ := this
    rw [hr1, hr2, hp1, hp2, hresp, hports, List.length_append, List.length_append, hlen, List.drop_left,
      List.drop_left]
    exact ⟨hst', rfl, htake, fun hi => by rw [hall hi]⟩
  rw [hst] at hcase1
  rcases hcase1 with ⟨e1, he1, rfl, hst1, -⟩ | ⟨hc1, rfl, hst1, -⟩ <;>
    rcases hcase2 with ⟨e2, he2, rfl, hst2, -⟩ | ⟨hc2, rfl, hst2, -⟩
  · obtain rfl : e1 = e2 := Option.some.inj (he1.symm.trans he2)
    exact ⟨hst1.trans hst2.symm, rfl, rfl, fun _ => rfl⟩
  · cases he1.symm.trans hc2
  · cases hc1.symm.trans he2
  · have hstAfter := stAfter_congr i hst
    refine ⟨by rw [hst1, hst2, hstAfter], by rw [length_okWords, length_okWords], ?_, okWords_congr i hst⟩
    rw [okWords_header, okWords_header, hstAfter]

end Sys2Proof.Proofs
end

section
/-! The response stream (30_encoding.md R80, 70_reset_and_hazards.md R311). -/

namespace Sys2Proof.Proofs

open Sys2Proof.Machine Sys2Proof.Laws

/-- How many words a command adds to the response stream (R91, R95). -/
theorem exec_next_rspOut {i : Instr} {s t : State} (h : exec i s = .next t) :
    ∃ ws, t.ports = deliver ws s.ports ∧
      ws.length = 3 + wordCount (responseLength (check (commandOf i) i.rsvd i.payload.length s.st) i) := by
  obtain ⟨-, ws, hports, -, ⟨e, he, rfl, -, -⟩ | ⟨hc, rfl, -, -⟩⟩ := exec_next_effect h
  · exact ⟨_, hports, by rw [he]; simp [errorResponse, responseLength, wordCount]⟩
  · exact ⟨_, hports, by rw [hc, length_okWords, responseLength]⟩

/-- `cmd_ready` is 0 exactly during reset and while the core is stalled (log entry 13). -/
theorem cmdReady_eq_false_iff (s : State) : cmdReady s = false ↔
    s.ports.rst = true ∨ (s.ports.rspReady = false ∧ Config.rspBufWords < s.ports.rspOut.length) := by
  rw [← stalled_iff, cmdReady, Bool.and_eq_false_iff, Bool.not_eq_false', Bool.not_eq_false']

/-- The held-back command word once a response of `ws` is delivered to a host that does not read. -/
theorem deliver_cmdLast_of_notReading {ws : List Word} {p : Ports} (h : p.rspReady = false) :
    (deliver ws p).cmdLast =
      if Config.rspBufWords < p.rspOut.length + ws.length then (if ws.length ≤ 3 then none else p.cmdLast)
      else none := by
  simp only [deliver, acceptLast_cmdLast, stalled_iff, h, List.length_append, true_and]

/-- Settles O16: a response has `3 + ceil(RLEN / 4)` words, more than three exactly where RLEN is not 0. -/
theorem unreadResponsesStall : Obligations.UnreadResponsesStall := by
  intro s
  refine ⟨step_stalled_iff s, fun hr hlen => (cmdReady_eq_false_iff s).2 (.inr ⟨hr, hlen⟩), ?_⟩
  intro i t rlen total h hrlen htotal
  obtain ⟨ws, hports, hws⟩ := exec_next_rspOut h
  rw [← hrlen, wordCount] at hws
  have hlen : t.ports.rspOut.length = total := by
    rw [hports, deliver_rspOut, List.length_append, hws, htotal]
  refine ⟨hlen, fun hrst hready => ?_⟩
  have hrst' : t.ports.rst = false := by rw [hports, deliver_rst, hrst]
  have hready' : t.ports.rspReady = false := by rw [hports, deliver_rspReady, hready]
  have hlast := deliver_cmdLast_of_notReading (ws := ws) hready
  rw [← hports, hws, ← htotal] at hlast
  refine ⟨?_, ?_, fun hstall hpayload => ?_, fun hfree => ?_⟩
  · rw [step_stalled_iff, hlen]
    simp only [hrst', hready', true_and]
  · rw [cmdReady_eq_false_iff, hlen]
    simp only [hrst', hready', true_and, Bool.false_eq_true, false_or]
  · rw [hlast, if_pos hstall, if_neg (by omega)]
  · rw [hlast]
    split_ifs with hstall hshort
    · rfl
    · omega
    · rfl

theorem responses_readWords {s : State} (h : s.ports.rst = false) (k : Nat) :
    responses (readWords k s) = responses s := by
  simp only [readWords_eq h, responses, acceptLast_rspMoved, acceptLast_rspOut, List.append_assoc,
    List.take_append_drop]

/-- A core that accepts command words has none held back. -/
theorem acceptLast_cmdLast_of_notStalled {p : Ports} (h : p.stalled = false) : p.acceptLast.cmdLast = none := by
  rw [acceptLast_cmdLast, h]
  rfl

/-- Settles O60: reading moves the oldest words and then accepts the held-back word if the core is free. -/
theorem readingFreesTheCore : Obligations.ReadingFreesTheCore := by
  intro s hrst
  have hvalid : rspValid s = true ↔ s.ports.rspOut ≠ [] := by simp [rspValid, hrst]
  refine ⟨hvalid, fun w ws hout => ?_, fun k => ?_, fun hin hready hout => ?_⟩
  · rw [rspData, if_pos (hvalid.2 (by simp [hout])), hout, List.head?_cons]
  · have hread := readWords_eq hrst k
    refine ⟨by rw [hread]; rfl, by rw [hread]; rfl, responses_readWords hrst k, by rw [hread], by rw [hread],
      by rw [hread], fun hready => ?_, fun hcmd => ?_⟩
    · rw [step_stalled_iff, hread]
      simp [hrst, hready]
    · rw [hread] at hcmd ⊢
      refine acceptLast_cmdLast_of_notStalled ?_
      simp only [cmdReady, Bool.and_eq_true, Bool.not_eq_true'] at hcmd
      exact hcmd.2
  · refine ⟨afterAccept s.parser none [] s, ?_, rfl, rfl, rfl, ?_, ?_⟩
    · rw [step, fetch_drain s hrst hready hout hin]
    · rw [afterAccept_ports, settle_of_ready hready]
      rfl
    · rw [afterAccept_ports, settle_of_ready hready]

end Sys2Proof.Proofs
end

section
/-! The keystream generator: the order of quarter-rounds, and APPLY over many bytes (40_stream_cipher.md sections 2
and 4). -/

namespace Sys2Proof.Proofs

open Sys2Proof.Machine Sys2Proof.Laws

/-- No word is touched by two quarter-rounds with eight distinct indices. -/
theorem not_touched_by_both {a b c d e f g h : Fin 16} (hn : [a, b, c, d, e, f, g, h].Nodup) {i : Nat}
    (h1 : d.val = i ∨ c.val = i ∨ b.val = i ∨ a.val = i) : ¬ (h.val = i ∨ g.val = i ∨ f.val = i ∨ e.val = i) := by
  grind

/-- A quarter-round after another on disjoint words: its own words are those it makes from the array before both. -/
theorem quarterRound_after_disjoint {a b c d e f g h : Fin 16} (hn : [a, b, c, d, e, f, g, h].Nodup)
    (x : Vector Word 16) (i : Nat) (hi : i < 16) :
    (quarterRound a b c d (quarterRound e f g h x))[i] =
      if d.val = i ∨ c.val = i ∨ b.val = i ∨ a.val = i then (quarterRound a b c d x)[i]
      else (quarterRound e f g h x)[i] := by
  have hread (j : Fin 16) (hj : d.val = j.val ∨ c.val = j.val ∨ b.val = j.val ∨ a.val = j.val) :
      (quarterRound e f g h x)[j] = x[j] := quarterRound_other e f g h x j j.isLt (not_touched_by_both hn hj)
  exact quarterRound_congr a b c d _ x (hread a (by simp)) (hread b (by simp)) (hread c (by simp))
    (hread d (by simp)) i hi

/-- Settles O38: word by word, each of the two writes its own four words from the array before both. -/
theorem disjointQuarterRoundsCommute : Obligations.DisjointQuarterRoundsCommute := by
  intro a b c d e f g h x hn
  have hn' : [e, f, g, h, a, b, c, d].Nodup :=
    (List.nodup_append_comm (l₁ := [a, b, c, d]) (l₂ := [e, f, g, h])).1 hn
  ext1 i hi
  rw [quarterRound_after_disjoint hn, quarterRound_after_disjoint hn']
  by_cases h1 : d.val = i ∨ c.val = i ∨ b.val = i ∨ a.val = i
  · rw [if_pos h1, if_neg (not_touched_by_both hn h1)]
  · rw [if_neg h1]
    split_ifs with h2
    · rfl
    · rw [quarterRound_other _ _ _ _ _ _ _ h1, quarterRound_other _ _ _ _ _ _ _ h2]

/-! Blocks made and cursor -/

/-- The state words and the cursor after `n` more bytes (R38), at every counter value. -/
theorem apply_cs_ko (d : List Byte) (c : StreamCipher) (h : 0 < c.ko.val) :
    (apply d c).2.cs = wordsAfter ((c.ko.val + d.length - 1) / 64) c.cs ∧
    (apply d c).2.ko.val = (c.ko.val + d.length - 1) % 64 + 1 := by
  induction d generalizing c with
  | nil =>
    have hko := c.ko.isLt
    have hblocks : (c.ko.val + ([] : List Byte).length - 1) / 64 = 0 := by simp only [List.length_nil]; omega
    rw [hblocks]
    exact ⟨rfl, by simp only [apply, List.length_nil]; omega⟩
  | cons b d ih =>
    rw [List.length_cons]
    obtain ⟨hbuffered, hregen⟩ := applyByteIsLazy b c
    by_cases hko : c.ko.val < 64
    · obtain ⟨-, hko', hcs', -⟩ := hbuffered hko
      obtain ⟨hcs, hend⟩ := ih (applyByte b c).2 (by omega)
      rw [hko', show c.ko.val + 1 + d.length - 1 = c.ko.val + (d.length + 1) - 1 by omega] at hcs hend
      exact ⟨hcs' ▸ hcs, hend⟩
    · have hfull : c.ko.val = 64 := by have := c.ko.isLt; omega
      obtain ⟨-, hko', hcs', -⟩ := hregen hfull
      obtain ⟨hcs, hend⟩ := ih (applyByte b c).2 (by omega)
      have hblocks : (c.ko.val + (d.length + 1) - 1) / 64 = (1 + d.length - 1) / 64 + 1 := by omega
      rw [hko'] at hcs hend
      refine ⟨?_, hend.trans (by omega)⟩
      rw [hblocks, wordsAfter, ← hcs']
      exact hcs

/-- Settles O42: byte by byte, a block is made where the cursor is at 64, and every byte is returned. -/
theorem applyCountsBlocks : Obligations.ApplyCountsBlocks := by
  intro data c h
  obtain ⟨hcs, hko⟩ := apply_cs_ko data c h
  exact ⟨hcs, hko, length_apply data c⟩

/-! Data in chunks -/

/-- APPLY over one more chunk, with the bytes returned so far. -/
def applyChunk (a : List Byte × StreamCipher) (d : List Byte) : List Byte × StreamCipher :=
  (a.1 ++ (apply d a.2).1, (apply d a.2).2)

theorem foldl_applyChunk (chunks : List (List Byte)) (out : List Byte) (c : StreamCipher) :
    chunks.foldl applyChunk (out, c) = (out ++ (apply chunks.flatten c).1, (apply chunks.flatten c).2) := by
  induction chunks generalizing out c with
  | nil => simp [apply]
  | cons d chunks ih =>
    rw [List.foldl_cons, applyChunk, ih, List.flatten_cons, apply_append, List.append_assoc]

/-- Settles O43: APPLY over the chunks is APPLY over their concatenation, which from a used-up buffer starts at byte 0
of the keystream. -/
theorem keystreamByPosition : Obligations.KeystreamByPosition := by
  intro chunks c h
  obtain ⟨hout, -⟩ := standsAt_apply chunks.flatten (standsAt_zero h)
  rw [← hout]
  exact congrArg Prod.fst (foldl_applyChunk chunks [] c)

end Sys2Proof.Proofs
end

section
/-! The authenticator's blocks, partial block and tag (41_authenticator.md sections 2 and 3). -/

namespace Sys2Proof.Proofs

open Sys2Proof.Machine Sys2Proof.Laws

/-- Settles O45: `length / 16` whole blocks, each absorbed as its last byte arrives. -/
theorem wholeBlocksAbsorbed : Obligations.WholeBlocksAbsorbed := by
  intro data a hpn hlen
  refine ⟨polyUpdate_wholeBlocks_h (data.length / 16) data a hpn (by omega), ?_, polyUpdate_r data a,
    polyUpdate_s data a⟩
  rw [polyUpdate_pn, hpn]
  omega

/-- Settles O46: the bytes up to the last block boundary leave no partial block, and the ones after it wait. -/
theorem partialBlockKept : Obligations.PartialBlockKept := by
  intro data a
  refine ⟨polyUpdate_pn data a, fun hpn j hj => ?_, polyUpdate_lt data a⟩
  have hwhole : (polyUpdate (data.take (data.length - data.length % 16)) a).pn.val = 0 := by
    rw [polyUpdate_pn, hpn, List.length_take]
    omega
  have htail : (data.drop (data.length - data.length % 16)).length = data.length % 16 := by
    rw [List.length_drop]
    omega
  obtain ⟨-, hwaiting⟩ := polyUpdate_part _ _ hwhole (by rw [htail]; omega)
  have h := hwaiting j (by rwa [htail])
  rw [← polyUpdate_append, List.take_append_drop] at h
  rw [h, List.getD_eq_getElem?_getD, List.getElem?_drop, List.getD_eq_getElem?_getD]

/-- Settles O47: with `pn` 0 POLY_FINAL gives the 16 bytes of a number below 2^128. -/
theorem polyFinalTag : Obligations.PolyFinalTag := by
  intro a
  have hpn : a.pn = 0 ↔ a.pn.val = 0 := Fin.ext_iff
  refine ⟨fun h => ⟨polyTag a, if_pos (hpn.2 h), length_toLE _ _, ?_⟩, fun h => if_neg (mt hpn.1 h)⟩
  rw [polyTag, leNat_toLE, Nat.mod_mod, polyP]

end Sys2Proof.Proofs
end

section
/-! The invariant of a session: the register relations of R38 hold after INIT, and data commands keep them
(10_state.md section 8). -/

namespace Sys2Proof.Proofs

open Sys2Proof.Machine Sys2Proof.Laws

/-! The counter's low word -/

theorem ctrInc_low (cs : Vector Word 16) : (ctrInc cs)[12] = cs[12] + 1 := by
  by_cases h : cs[12] + 1 = 0
  · rw [ctrInc_of_carry h, Vector.getElem_set_ne _ _ (by decide), Vector.getElem_set_self, h]
  · rw [ctrInc_of_noCarry h, Vector.getElem_set_self]

theorem wordsAfter_low (q : Nat) (cs : Vector Word 16) : (wordsAfter q cs)[12] = cs[12] + BitVec.ofNat 32 q := by
  induction q with
  | zero => exact (BitVec.add_zero _).symm
  | succ q ih =>
    rw [wordsAfter_succ, ctrInc_low, ih, BitVec.add_assoc, BitVec.ofNat_add]
    rfl

/-! After INIT -/

theorem initialWords_constants (key nonce : List Byte) :
    (initialWords key nonce)[0] = 0x61707865 ∧ (initialWords key nonce)[1] = 0x3320646e ∧
    (initialWords key nonce)[2] = 0x79622d32 ∧ (initialWords key nonce)[3] = 0x6b206574 := by
  obtain ⟨-, hconst⟩ := constantWords
  exact hconst

/-- INIT leaves the registers of a live session at `dataLength` 0. -/
theorem liveSession_initSession (key nonce aad : List Byte) (n : Session) :
    LiveSession (initSession key nonce aad n) := by
  have hconst := initialWords_constants key nonce
  rw [initSession_eq]
  refine ⟨?_, rfl, ?_, polyUpdate_lt _ _ (by simp only [polyInit_h]; decide), ?_, ?_⟩
  · rw [polyUpdate_pn, polyInit_pn, length_append_pad16]
    show (0 + 16 * ((aad.length + 15) / 16)) % 16 = 0
    omega
  · have hzero : (initialWords key nonce)[12] = 0 := rfl
    simp [ctrInc_low, hzero]
  · simpa only [ctrInc_other _ _ _ (show 12 ≠ 0 by decide) (show 13 ≠ 0 by decide),
      ctrInc_other _ _ _ (show 12 ≠ 1 by decide) (show 13 ≠ 1 by decide),
      ctrInc_other _ _ _ (show 12 ≠ 2 by decide) (show 13 ≠ 2 by decide),
      ctrInc_other _ _ _ (show 12 ≠ 3 by decide) (show 13 ≠ 3 by decide)] using hconst
  · rw [polyUpdate_r, polyInit, BitVec.and_assoc, BitVec.and_self]

/-! After a data command -/

/-- The cursor and the counter's low word follow `dataLength`, also where it wraps (R133, R214). -/
theorem dataLength_relations {D L ko : Nat} (hko : ko = if D % 64 = 0 then 64 else D % 64) :
    ((ko + L - 1) % 64 + 1 = if (D + L) % 2 ^ 64 % 64 = 0 then 64 else (D + L) % 2 ^ 64 % 64) ∧
    (1 + (D + 63) / 64 + (ko + L - 1) / 64) % 2 ^ 32 = (1 + ((D + L) % 2 ^ 64 + 63) / 64) % 2 ^ 32 := by
  subst hko
  constructor <;> split_ifs <;> omega

/-- Using `d.length` keystream bytes and absorbing as many bytes keeps the register relations. -/
theorem liveSession_dataSession {n : Session} (hn : LiveSession n) {x d : List Byte} (hx : x.length = d.length) :
    LiveSession (dataSession x d n) := by
  obtain ⟨hpn, hko, hlow, hlt, ⟨h0, h1, h2, h3⟩, hr⟩ := hn
  have hpos : 0 < n.cipher.ko.val := by
    rw [hko]
    split_ifs <;> omega
  obtain ⟨hcs, hko'⟩ := apply_cs_ko d n.cipher hpos
  obtain ⟨hcursor, hcounter⟩ := dataLength_relations (L := d.length) hko
  have hD : (addDataLength d.length n).toNat = (n.dataLength.toNat + d.length) % 2 ^ 64 := by
    rw [addDataLength_eq, BitVec.toNat_ofNat]
  refine ⟨?_, ?_, ?_, polyUpdate_lt _ _ hlt, ⟨?_, ?_, ?_, ?_⟩, ?_⟩
  · simp only [dataSession, polyUpdate_pn, hpn, hx, hD]
    omega
  · simp only [dataSession, hko', hD]
    exact hcursor
  · simp only [dataSession, hcs, wordsAfter_low, hlow, hD, ← BitVec.ofNat_add]
    apply BitVec.eq_of_toNat_eq
    rw [BitVec.toNat_ofNat, BitVec.toNat_ofNat]
    exact hcounter
  · exact (apply_otherWords d n.cipher 0 (by decide) (by decide) (by decide)).trans h0
  · exact (apply_otherWords d n.cipher 1 (by decide) (by decide) (by decide)).trans h1
  · exact (apply_otherWords d n.cipher 2 (by decide) (by decide) (by decide)).trans h2
  · exact (apply_otherWords d n.cipher 3 (by decide) (by decide) (by decide)).trans h3
  · simp only [dataSession, polyUpdate_r, hr]

theorem liveSession_encryptSession {n : Session} (hn : LiveSession n) (d : List Byte) :
    LiveSession (encryptSession d n) := by
  rw [encryptSession_eq]
  exact liveSession_dataSession hn (length_apply d n.cipher)

theorem liveSession_decryptSession {n : Session} (hn : LiveSession n) (d : List Byte) :
    LiveSession (decryptSession d n) := by
  rw [decryptSession_eq]
  exact liveSession_dataSession hn rfl

/-! One command -/

theorem sessionInv_of_live {t : State} (hl : Live t) (hn : LiveSession t.session)
    (h0 : t.st = .initialized → t.session.dataLength = 0) : SessionInv t :=
  ⟨fun _ => hn, fun h => absurd hl h, h0⟩

theorem sessionInv_of_reset {t : State} (hst : t.st = .uninit ∨ t.st = .finished) (hn : t.session = Session.reset) :
    SessionInv t := by
  refine ⟨fun ⟨h1, h2⟩ => (hst.elim h1 h2).elim, fun _ => hn, fun _ => ?_⟩
  rw [hn]
  rfl

theorem sessionInv_congr {s t : State} (hst : t.st = s.st) (hn : t.session = s.session) (hs : SessionInv s) :
    SessionInv t := by
  simpa only [SessionInv, Live, hst, hn] using hs

/-- Every command keeps the relations between `st` and the session registers. -/
theorem sessionInv_exec {i : Instr} {s t : State} (hs : SessionInv s) (h : exec i s = .next t) : SessionInv t := by
  obtain ⟨-, ws, -, -, ⟨e, -, -, hst, hn⟩ | ⟨hc, -, hst, hn⟩⟩ := exec_next_effect h
  · exact sessionInv_congr hst hn hs
  · obtain ⟨-, -, hpermitted, -⟩ := (check_none_iff _ _ _ _).1 hc
    have ⟨hlive, _, _⟩ := hs
    cases i with
    | init r p =>
      refine sessionInv_of_live (by simp [Live, hst, stAfter]) ?_ fun _ => by rw [hn]; rfl
      rw [hn]
      exact liveSession_initSession _ _ _ _
    | encrypt r p =>
      refine sessionInv_of_live (by simp [Live, hst, stAfter]) ?_ (by simp [hst, stAfter])
      rw [hn]
      exact liveSession_encryptSession (hlive (of_decide_eq_true hpermitted)) p
    | decrypt r p =>
      refine sessionInv_of_live (by simp [Live, hst, stAfter]) ?_ (by simp [hst, stAfter])
      rw [hn]
      exact liveSession_decryptSession (hlive (of_decide_eq_true hpermitted)) p
    | finish r p => exact sessionInv_of_reset (.inr hst) hn
    | tagcmp r p => exact sessionInv_congr hst hn hs
    | abort r p => exact sessionInv_of_reset (.inl hst) hn

end Sys2Proof.Proofs
end

section
/-! The invariant of the whole core: every step and every act of the host keeps it (10_state.md section 8,
70_reset_and_hazards.md section 3). -/

namespace Sys2Proof.Proofs

open Sys2Proof.Machine Sys2Proof.Laws

/-! The parser and the ports -/

theorem acceptFrame_inv (ws : List Word) (p : Parser) (h : ParserInv p) : ParserInv (acceptFrame ws p).1 := by
  induction ws generalizing p with
  | nil => exact h
  | cons w ws ih =>
    have hw := acceptWord_inv w p h
    rw [acceptFrame]
    rcases haccept : acceptWord w p with ⟨q, _ | f⟩ <;> rw [haccept] at hw
    · exact ih q hw
    · exact hw

/-- A held-back word that is accepted once the core is free meets the streams' limits. -/
theorem portsInv_acceptLast {p : Ports} (h : p.rst = true → p.rspOut = [] ∧ p.cmdLast = none) :
    PortsInv p.acceptLast := by
  refine ⟨fun hlast => ?_, fun hr => ?_⟩
  · by_contra hfree
    rw [acceptLast_cmdLast, if_neg (mt (stalled_iff p).1 hfree)] at hlast
    exact hlast rfl
  · obtain ⟨hout, hnone⟩ := h hr
    exact ⟨hout, by rw [acceptLast_cmdLast, hnone, ite_self]⟩

theorem portsInv_deliver (ws : List Word) {p : Ports} (h : p.rst = false) : PortsInv (deliver ws p) :=
  portsInv_acceptLast fun h' => absurd (h.symm.trans h') (by decide)

theorem portsInv_of_none {p : Ports} (h : p.cmdLast = none) (hr : p.rst = true → p.rspOut = []) : PortsInv p :=
  ⟨fun h' => absurd h h', fun h' => ⟨hr h', h⟩⟩

/-! Reset -/

theorem parserInv_reset : ParserInv Parser.reset := by decide

theorem coreInv_reset {p : Ports} (h : PortsInv p) : CoreInv { State.reset with ports := p } :=
  ⟨sessionInv_of_reset (.inl rfl) rfl, parserInv_reset, h⟩

/-- Settles O48: after reset there is no session, no frame in progress and no word on the streams. -/
theorem resetMeetsTheInvariant : Obligations.ResetMeetsTheInvariant :=
  coreInv_reset (portsInv_of_none rfl fun _ => rfl)

/-! Steps -/

/-- A command on an accepted frame keeps the invariant. -/
theorem coreInv_exec {i : Instr} {s t : State} (hs : SessionInv s) (hp : ParserInv s.parser)
    (hr : s.ports.rst = false) (h : exec i s = .next t) : CoreInv t := by
  obtain ⟨hparser, ws, hports, -⟩ := exec_next_effect h
  refine ⟨sessionInv_exec hs h, by rwa [hparser], ?_⟩
  rw [hports]
  exact portsInv_deliver ws hr

/-- Settles O49: a step is a reset, a wait, a command or an illegal opcode on the state that accepting words leaves. -/
theorem stepKeepsTheInvariant : Obligations.StepKeepsTheInvariant := by
  intro s t ⟨hs, hp, hports⟩ h
  rcases step_next h with ⟨hr, rfl⟩ | ⟨hr, -, p, f, rest, haccept, hcase⟩
  · exact coreInv_reset (portsInv_of_none rfl fun _ => rfl)
  have hp' : ParserInv p := by
    have := acceptFrame_inv s.ports.cmdIn s.parser hp
    rwa [haccept] at this
  have hr' (l : Option Word) : (afterAccept p l rest s).ports.rst = false := by rw [afterAccept_ports, settle_rst, hr]
  rcases hcase with ⟨-, rfl⟩ | ⟨g, i, -, -, hexec⟩ | ⟨g, -, -, herror⟩
  · exact ⟨hs, hp', portsInv_of_none rfl fun h' => absurd ((hr' none).symm.trans h') (by decide)⟩
  · exact coreInv_exec (s := afterAccept p g.pw.getLast? rest s) hs hp' (hr' _) hexec
  · rw [illegalOpcode, raiseError_eq] at herror
    cases herror
    exact ⟨hs, hp', portsInv_deliver _ (hr' _)⟩

/-! The host's acts -/

/-- Settles O50: the host's acts change the ports only, or reset every register. -/
theorem hostActsKeepTheInvariant : Obligations.HostActsKeepTheInvariant := by
  intro s ws n b hinv
  have ⟨hs, hp, hlast, hrst⟩ := hinv
  refine ⟨⟨hs, hp, hlast, hrst⟩, ?_, ⟨hs, hp, portsInv_acceptLast hrst⟩, ?_,
    coreInv_reset (portsInv_of_none rfl fun _ => rfl), ?_⟩
  · by_cases hr : s.ports.rst = true
    · rwa [readWords, if_pos hr]
    · rw [readWords, if_neg hr]
      exact ⟨hs, hp, portsInv_acceptLast fun h => absurd h hr⟩
  · by_cases hr : s.ports.rst = true
    · rw [withdrawWords, if_pos hr]
      exact ⟨hs, hp, portsInv_of_none rfl fun _ => (hrst hr).1⟩
    · rwa [withdrawWords, if_neg hr]
  · by_cases hr : s.ports.rst = true
    · rw [releaseReset, if_pos hr]
      exact coreInv_reset (portsInv_of_none rfl fun _ => rfl)
    · rwa [releaseReset, if_neg hr]

/-! The faults -/

/-- In a live session the pad completes the last block before POLY_FINAL (R166). -/
theorem finishAuth_pn_eq_zero_iff (n : Session) : (finishAuth n).pn = 0 ↔ n.auth.pn.val = n.dataLength.toNat % 16 := by
  have hlt := n.auth.pn.isLt
  rw [Fin.ext_iff, finishAuth_pn, Fin.val_zero]
  omega

/-- Settles O29: FINISH passes the checks and POLY_FINAL gives no tag. -/
theorem finishFaultsOnPartialBlock : Obligations.FinishFaultsOnPartialBlock := by
  intro s hlive hpn
  have hnone : polyFinal (finishAuth s.session) = none := if_neg (mt (finishAuth_pn_eq_zero_iff _).1 hpn)
  have hpermitted : permitted .finish s.st = true := decide_eq_true hlive
  rw [exec_performed (i := .finish 0 []) rfl rfl hpermitted rfl, perform, hnone]

/-- In a state the rules allow every command answers a next state. -/
theorem exec_answers_next {i : Instr} {s : State} (hs : SessionInv s) : ∃ t, exec i s = .next t := by
  rcases exec_cases i s with ⟨e, -, h⟩ | ⟨-, h⟩ | ⟨hc, ⟨r, p, rfl⟩, hnone, -⟩
  · exact ⟨_, h⟩
  · exact ⟨_, h⟩
  · obtain ⟨-, -, hpermitted, -⟩ := (check_none_iff _ _ _ _).1 hc
    obtain ⟨hlive, -, -⟩ := hs
    obtain ⟨hpn, -⟩ := hlive (of_decide_eq_true hpermitted)
    rw [polyFinal, if_pos ((finishAuth_pn_eq_zero_iff _).2 hpn)] at hnone
    cases hnone

/-- Everything a step can answer: a next state, one of the two waits for the host, or what a command answers on the
state that accepting its frame leaves. -/
theorem step_answers (s : State) :
    (∃ t, step s = .next t) ∨ step s = .fault .awaitingWord ∨ step s = .fault .responseStall ∨
      ∃ i p l rest, step s = exec i (afterAccept p l rest s) := by
  rcases fetch_cases s with ⟨-, h⟩ | ⟨-, -, -, h⟩ | ⟨-, -, ⟨-, -, h⟩ | ⟨-, h⟩⟩
  · exact .inl ⟨_, by rw [step, h]⟩
  · exact .inr (.inr (.inl (by rw [step, h])))
  · exact .inr (.inl (by rw [step, h]))
  · rcases haccept : acceptFrame s.ports.cmdIn s.parser with ⟨p, _ | f, rest⟩ <;> rw [haccept] at h
    · exact .inl ⟨afterAccept p none rest s, by rw [step, h]; rfl⟩
    · cases hf : decodeFrame f with
      | none => exact .inl ⟨_, by simp only [step, h, fetchedFrom, hf]; exact raiseError_eq _ _ _⟩
      | some i => exact .inr (.inr (.inr ⟨i, p, f.pw.getLast?, rest, by simp only [step, h, fetchedFrom, hf]⟩))

/-- Settles O51: what is not a next state is one of the two waits, since every command answers a next state. -/
theorem stepNeverLeavesTheRules : Obligations.StepNeverLeavesTheRules := by
  rintro s ⟨hs, -, -⟩
  rcases step_answers s with ⟨t, h⟩ | h | h | ⟨i, p, l, rest, h⟩
  · rw [h, safeAnswer]
  · rw [h, safeAnswer]
  · rw [h, safeAnswer]
  · obtain ⟨t, ht⟩ := exec_answers_next (i := i) (s := afterAccept p l rest s) hs
    rw [h, ht, safeAnswer]

/-! How `st` moves -/

/-- The moves of `st` that one command can make (R264). -/
def StMoves (s t : State) : Prop :=
  t.st = s.st ∨ t.st = .uninit ∨ ((s.st = .uninit ∨ s.st = .finished) ∧ t.st = .initialized) ∨
    (s.st = .initialized ∧ (t.st = .authEnc ∨ t.st = .authDec)) ∨ (Live s ∧ t.st = .finished)

/-- Where ENCRYPT is performed. -/
theorem encrypt_states {st : SessionState} (h4 : permitted .encrypt st = true)
    (h5 : wrongDirection .encrypt st = false) : st = .initialized ∨ st = .authEnc := by
  revert h4 h5
  cases st <;> decide

/-- Where DECRYPT is performed. -/
theorem decrypt_states {st : SessionState} (h4 : permitted .decrypt st = true)
    (h5 : wrongDirection .decrypt st = false) : st = .initialized ∨ st = .authDec := by
  revert h4 h5
  cases st <;> decide

theorem stMoves_exec {i : Instr} {s t : State} (h : exec i s = .next t) : StMoves s t := by
  obtain ⟨-, ws, -, -, ⟨e, -, -, hst, -⟩ | ⟨hc, -, hst, -⟩⟩ := exec_next_effect h
  · exact .inl hst
  · obtain ⟨-, -, hpermitted, hdirection⟩ := (check_none_iff _ _ _ _).1 hc
    cases i with
    | init r p => exact .inr (.inr (.inl ⟨of_decide_eq_true hpermitted, hst⟩))
    | encrypt r p =>
      rcases encrypt_states hpermitted hdirection with hs | hs
      · exact .inr (.inr (.inr (.inl ⟨hs, .inl hst⟩)))
      · exact .inl (hst.trans hs.symm)
    | decrypt r p =>
      rcases decrypt_states hpermitted hdirection with hs | hs
      · exact .inr (.inr (.inr (.inl ⟨hs, .inr hst⟩)))
      · exact .inl (hst.trans hs.symm)
    | finish r p => exact .inr (.inr (.inr (.inr ⟨of_decide_eq_true hpermitted, hst⟩)))
    | tagcmp r p => exact .inl hst
    | abort r p => exact .inr (.inl hst)

/-- Settles O52: out of reset only a command moves `st`. -/
theorem sessionStateMoves : Obligations.SessionStateMoves := by
  intro s t hr h
  rcases step_next h with ⟨hr', -⟩ | ⟨-, -, p, f, rest, -, ⟨-, rfl⟩ | ⟨g, i, -, -, hexec⟩ | ⟨g, -, -, herror⟩⟩
  · exact absurd (hr.symm.trans hr') (by decide)
  · exact .inl rfl
  · exact stMoves_exec (s := afterAccept p g.pw.getLast? rest s) hexec
  · rw [illegalOpcode, raiseError_eq] at herror
    cases herror
    exact .inl rfl

end Sys2Proof.Proofs
end

section
/-! Hardware reset (70_reset_and_hazards.md section 1). -/

namespace Sys2Proof.Proofs

open Sys2Proof.Machine Sys2Proof.Laws

/-- Releasing `rst` gives every register its reset value; the words offered and the words moved stay. -/
theorem releaseReset_of_rst {s : State} (h : s.ports.rst = true) :
    releaseReset s = { hardReset s with ports := { (hardReset s).ports with rst := false } } := if_pos h

theorem assertReset_rst (s : State) : (assertReset s).ports.rst = true := rfl

/-- A core out of reset with nothing offered and nothing on its way to a reading host waits (R304). -/
theorem step_awaitingWord {s : State} (hr : s.ports.rst = false) (hs : NotStalled s) (hin : s.ports.cmdIn = [])
    (hout : s.ports.rspReady = false ∨ s.ports.rspOut = []) : step s = .fault .awaitingWord := by
  rw [step, fetch_noWord s hr hs hin hout]

/-- With no word offered the core waits once `rst` returns to 0. -/
theorem step_releaseReset {s : State} (h : s.ports.rst = true) (hin : s.ports.offered = []) :
    step (releaseReset s) = .fault .awaitingWord := by
  rw [releaseReset_of_rst h]
  exact step_awaitingWord rfl (.inr (Nat.zero_le _)) hin (.inr rfl)

theorem step_of_rst {s : State} (h : s.ports.rst = true) : step s = .next (hardReset s) := by
  rw [step, fetch, if_pos h]

/-- Settles O2: while `rst` is 1 a step and a release both leave `hardReset`'s registers. -/
theorem resetHoldsTheCore : Obligations.ResetHoldsTheCore := by
  intro s h
  have hwithdraw : withdrawWords s = { s with ports := { s.ports with cmdIn := [], cmdLast := none } } := if_pos h
  refine ⟨(cmdReady_eq_false_iff s).2 (.inl h), by rw [rspValid, h]; rfl, fun n => if_pos h, ?_, ?_⟩
  · exact ⟨_, step_of_rst h, rfl, rfl, rfl, h, rfl, rfl⟩
  · refine ⟨by rw [releaseReset_of_rst h]; rfl, by rw [releaseReset_of_rst h]; rfl, by rw [releaseReset_of_rst h]; rfl,
      by rw [releaseReset_of_rst h], step_releaseReset h, ?_, fun w => by rw [releaseReset_of_rst h]; rfl⟩
    rw [hwithdraw]
    exact step_releaseReset h rfl

/-- Settles O3: asserting and releasing `rst` gives the reset values and keeps the words that have moved; reading `k`
words before moves those `k`. -/
theorem resetDiscardsFrameAndSession : Obligations.ResetDiscardsFrameAndSession := by
  intro s
  have hrelease (u : State) := releaseReset_of_rst (assertReset_rst u)
  refine ⟨by rw [hrelease]; rfl, by rw [hrelease]; rfl, by rw [hrelease]; rfl, by rw [hrelease]; rfl,
    by rw [hrelease]; rfl, by rw [hrelease]; rfl, by rw [hrelease]; rfl, fun h k => ?_⟩
  rw [hrelease, readWords_eq h]
  exact ⟨rfl, rfl, rfl, rfl⟩

end Sys2Proof.Proofs
end

section
/-! Frames that arrive in parts (70_reset_and_hazards.md section 2, 30_encoding.md section 2). -/

namespace Sys2Proof.Proofs

open Sys2Proof.Machine Sys2Proof.Laws

/-- From `HDR0`, words that end inside a frame are all accepted and leave the parser in another phase. -/
theorem acceptFrame_incomplete {ws : List Word} {p : Parser} (hp : p.ph = .hdr0) (hne : ws ≠ [])
    (h : decode ws = .incompleteFrame) : ∃ q, acceptFrame ws p = (q, none, []) ∧ q.ph ≠ .hdr0 := by
  rcases decode_incomplete h with hshort | ⟨a, b, c, tl, rfl, hlen⟩
  · match ws, hne, hshort with
    | [a], _, _ => exact ⟨{ p with hw0 := a, ph := .hdr1 }, by simp [acceptFrame, acceptWord, hp], by simp⟩
    | [a, b], _, _ => exact ⟨{ p with hw0 := a, hw1 := b, ph := .hdr2 }, by simp [acceptFrame, acceptWord, hp], by simp⟩
  · rw [acceptFrame_header a b c tl p hp, if_pos hlen]
    exact ⟨_, rfl, by simp⟩

/-- After the words on their way have moved to a reading host, nothing is left for it. -/
theorem settle_idle (p : Ports) : p.settle.rspReady = false ∨ p.settle.rspOut = [] := by
  cases h : p.rspReady with
  | true => exact .inr (by rw [settle_of_ready h])
  | false => exact .inl (by rw [settle_rspReady, h])

theorem notStalled_settle {p : Ports} (h : p.rspReady = true ∨ p.rspOut.length ≤ Config.rspBufWords) :
    p.settle.rspReady = true ∨ p.settle.rspOut.length ≤ Config.rspBufWords := by
  rw [settle_rspReady, settle_rspOut]
  split_ifs with hready
  · exact .inl hready
  · exact h

/-- With no word offered a step that answers only moves response words. -/
theorem step_next_of_noWord {s t : State} (hr : s.ports.rst = false) (hin : s.ports.cmdIn = [])
    (h : step s = .next t) : t = afterAccept s.parser none [] s := by
  rcases step_next h with ⟨hr', -⟩ | ⟨-, -, p, f, rest, haccept, hcase⟩
  · exact absurd (hr.symm.trans hr') (by decide)
  · rw [hin, acceptFrame] at haccept
    obtain ⟨rfl, rfl, rfl⟩ : s.parser = p ∧ none = f ∧ [] = rest := by simpa using haccept
    rcases hcase with ⟨-, rfl⟩ | ⟨g, -, hg, -⟩ | ⟨g, hg, -⟩
    · rfl
    · cases hg
    · cases hg

/-- Settles O11: the words accepted leave a parser that waits; reading responses or driving `rsp_ready` offers it no
word. -/
theorem partialFrameWaits : Obligations.PartialFrameWaits := by
  intro s hr hs
  refine ⟨step_awaitingWord hr hs, fun hne hp h => ?_⟩
  obtain ⟨q, haccept, hq⟩ := acceptFrame_incomplete hp hne h
  have hstep : step s = .next (afterAccept q none [] s) := by
    rw [step, fetch_of s hr hs hne, haccept, fetchedFrom]
  have hr' : (afterAccept q none [] s).ports.rst = false := by rw [afterAccept_ports, settle_rst, hr]
  have hs' := notStalled_settle hs
  have hidle := settle_idle s.ports
  refine ⟨_, hstep, rfl, rfl, responses_afterAccept q none [] s, rfl, hq,
    step_awaitingWord hr' hs' rfl hidle, fun n => ?_, fun b u hu => ?_⟩
  · rw [readWords_eq hr']
    refine step_awaitingWord hr' (hs'.imp_right fun hlen => ?_) rfl (hidle.imp_right fun hout => ?_)
    · exact (List.drop_sublist n _).length_le.trans hlen
    · exact (congrArg (List.drop n) hout).trans List.drop_nil
  · rw [step_next_of_noWord (s := setRspReady b (afterAccept q none [] s)) hr' rfl hu]
    exact ⟨rfl, rfl, rfl, responses_afterAccept ..⟩

/-- Settles O12: accepting the second part goes on where the first part ended, and the response words that move in
between are those that would have moved. -/
theorem splitArrivalIsTheSame : Obligations.SplitArrivalIsTheSame := by
  intro s t more h hmore
  obtain ⟨hr, hs, p, haccept, rfl⟩ := fetch_waiting h
  obtain ⟨-, happend⟩ := acceptFrame_append _ more _ _ _ haccept
  have hr' : (afterAccept p none [] s).ports.rst = false := by rw [afterAccept_ports, settle_rst, hr]
  have hparts : fetch (offerWords more (afterAccept p none [] s)) =
      fetchedFrom (acceptFrame more p) (offerWords more (afterAccept p none [] s)) :=
    fetch_of (offerWords more (afterAccept p none [] s)) hr' (notStalled_settle hs) hmore
  have honce : fetch (offerWords more s) = fetchedFrom (acceptFrame more p) (offerWords more s) := by
    rw [← happend]
    exact fetch_of (offerWords more s) hr hs (List.append_ne_nil_of_right_ne_nil _ hmore)
  rw [step, step, hparts, honce]
  simp only [fetchedFrom, afterAccept_in_two_parts]

end Sys2Proof.Proofs
end

section
/-! A stream of commands (20_memory.md section 5): stepping through it follows executing the commands in order. -/

namespace Sys2Proof.Proofs

open Sys2Proof.Machine Sys2Proof.Laws

/-- `v`, reached by steps, has the registers and responses of `w`, reached by executing commands: only which response
words have moved may differ, and only where the host reads. -/
def Follows (v w : State) : Prop :=
  v.st = w.st ∧ v.session = w.session ∧ responses v = responses w ∧ v.ports.rst = false ∧ v.parser.ph = .hdr0 ∧
    v.ports.rspReady = w.ports.rspReady ∧ (w.ports.rspReady = false → v.ports.rspOut = w.ports.rspOut)

/-- One command: the step on its frame follows its execution. -/
theorem step_follows_exec {i : Instr} {v w w' : State} {rest : List Word} (hf : Follows v w) (hs : NotStalled v)
    (hi : i.wellFormed = true) (hin : v.ports.cmdIn = encode i ++ rest) (h : exec i w = .next w') :
    ∃ v', step v = .next v' ∧ Follows v' w' ∧ v'.ports.cmdIn = rest := by
  obtain ⟨hst, hn, hresp, hr, hp, hready, hout⟩ := hf
  obtain ⟨ws, hw', hany⟩ := exec_of_st_session h
  have hframe : splitFrame v.ports.cmdIn = some (frameOf i, rest) := by rw [hin, splitFrame_encode_append hi]
  have hstep := (step_of_command hr hs hp hframe (decodeFrame_frameOf hi)).trans (hany (afterAccept ..) hst hn)
  have hports : w'.ports = deliver ws w.ports := by rw [hw']
  refine ⟨_, hstep, ⟨rfl, rfl, ?_, ?_, rfl, ?_, fun hnot => ?_⟩, rfl⟩
  · rw [responses_deliver rfl, responses_afterAccept, hresp, responses_deliver hports]
  · rw [deliver_rst, afterAccept_ports, settle_rst, hr]
  · rw [deliver_rspReady, afterAccept_ports, settle_rspReady, hready, hports, deliver_rspReady]
  · rw [hports, deliver_rspReady] at hnot
    rw [deliver_rspOut, afterAccept_ports, settle_of_not_ready (hready.trans hnot), hout hnot, hports, deliver_rspOut]

theorem execAll_cons {i : Instr} {is : List Instr} {w u : State} (h : execAll (i :: is) w = some u) :
    ∃ w', exec i w = .next w' ∧ execAll is w' = some u := by
  rw [execAll] at h
  cases hi : exec i w with
  | next w' => exact ⟨w', rfl, by rwa [hi] at h⟩
  | fault f => rw [hi] at h; cases h
  | refused r => rw [hi] at h; cases h

/-- Executing commands only adds response words, and leaves `rsp_ready` to the host. -/
theorem execAll_rspOut {is : List Instr} {w u : State} (h : execAll is w = some u) :
    w.ports.rspOut.length ≤ u.ports.rspOut.length := by
  induction is generalizing w with
  | nil => cases h; exact le_rfl
  | cons i is ih =>
    obtain ⟨w', hi, hrest⟩ := execAll_cons h
    obtain ⟨ws, hports, -⟩ := exec_next_rspOut hi
    refine le_trans ?_ (ih hrest)
    rw [hports, deliver_rspOut, List.length_append]
    exact Nat.le_add_right _ _

theorem run_follows_execAll {is : List Instr} {v w u : State} {rest : List Word} (hf : Follows v w)
    (hhost : w.ports.rspReady = true ∨ u.ports.rspOut.length ≤ Config.rspBufWords)
    (hwf : ∀ i ∈ is, i.wellFormed = true) (hin : v.ports.cmdIn = is.flatMap encode ++ rest)
    (h : execAll is w = some u) :
    ∃ t, Host.Core.run core is.length v = .next t ∧ Follows t u ∧ t.ports.cmdIn = rest := by
  induction is generalizing v w with
  | nil => cases h; exact ⟨v, rfl, hf, hin⟩
  | cons i is ih =>
    obtain ⟨w', hi, hrest⟩ := execAll_cons h
    obtain ⟨hwfi, hwfis⟩ := List.forall_mem_cons.1 hwf
    have hs : NotStalled v := by
      obtain ⟨-, -, -, -, -, hready, hout⟩ := hf
      cases hb : w.ports.rspReady with
      | true => exact .inl (hready.trans hb)
      | false =>
        have hroom := hhost.resolve_left (by simp [hb])
        exact .inr (by rw [hout hb]; exact (execAll_rspOut h).trans hroom)
    rw [List.flatMap_cons, List.append_assoc] at hin
    obtain ⟨v', hstep, hf', hin'⟩ := step_follows_exec hf hs hwfi hin hi
    obtain ⟨-, -, -, hready, -⟩ := everyCommandFrame i w w' hi
    obtain ⟨t, hrun, ht⟩ := ih hf' (by rwa [hready]) hwfis hin' hrest
    exact ⟨t, (run_succ core is.length v v' hstep).trans hrun, ht⟩

/-- Settles O13: a state follows itself, and the steps follow the commands one by one. -/
theorem streamRunsCommandsInOrder : Obligations.StreamRunsCommandsInOrder := by
  intro is rest s u hr hp hhost hwf hin h
  have hself : Follows s s := ⟨rfl, rfl, rfl, hr, hp, rfl, fun _ => rfl⟩
  obtain ⟨t, hrun, ⟨hst, hn, hresp, -, hph, -, -⟩, hrest⟩ := run_follows_execAll hself hhost hwf hin h
  exact ⟨t, hrun, hst, hn, hresp, hrest, hph⟩

end Sys2Proof.Proofs
end

section
/-! The data commands of one session (40_stream_cipher.md section 4, 41_authenticator.md section 2): what ENCRYPT and
DECRYPT have in common over any chunks. -/

namespace Sys2Proof.Proofs

open Sys2Proof.Machine Sys2Proof.Laws

/-- `cmd` is the data command of the direction `st`, and authenticates the bytes `covered`: ENCRYPT its output (R206),
DECRYPT its payload (R209). -/
structure DataCommand (cmd : List Byte → Instr) (opc : Byte) (st : SessionState)
    (covered : List Byte → StreamCipher → List Byte) : Prop where
  answers : ∀ d s, (s.st = .initialized ∨ s.st = st) →
    Answers (cmd d) s st (dataSession (covered d s.session.cipher) d s.session)
      (okResponse opc false st (apply d s.session.cipher).1)
  length_covered : ∀ d c, (covered d c).length = d.length
  covered_append : ∀ a b c, covered (a ++ b) c = covered a c ++ covered b (apply a c).2
  st_live : st ≠ .uninit ∧ st ≠ .finished

/-- The bytes that ENCRYPT authenticates. -/
def encrypted (d : List Byte) (c : StreamCipher) : List Byte := (apply d c).1

/-- The bytes that DECRYPT authenticates. -/
def arrived (d : List Byte) (_ : StreamCipher) : List Byte := d

theorem dataCommand_encrypt : DataCommand (.encrypt 0) 0x02 .authEnc encrypted where
  answers d s h := by
    have hanswers := encryptPerformed d s h
    rwa [← addDataLength_eq] at hanswers
  length_covered d c := length_apply d c
  covered_append a b c := by rw [encrypted, apply_append]; rfl
  st_live := by decide

theorem dataCommand_decrypt : DataCommand (.decrypt 0) 0x03 .authDec arrived where
  answers d s h := by
    have hanswers := decryptPerformed d s h
    rwa [← addDataLength_eq] at hanswers
  length_covered d c := rfl
  covered_append a b c := rfl
  st_live := by decide

theorem dataSession_nil (n : Session) : dataSession [] [] n = n := by
  have hD : addDataLength ([] : List Byte).length n = n.dataLength := BitVec.add_zero _
  rw [dataSession, hD]
  rfl

theorem dataSession_append (x y a b : List Byte) (n : Session) :
    dataSession (x ++ y) (a ++ b) n = dataSession y b (dataSession x a n) := by
  have hD : addDataLength (a ++ b).length n = addDataLength b.length (dataSession x a n) := by
    simp only [addDataLength, dataSession, List.length_append, BitVec.ofNat_add, BitVec.add_assoc]
  rw [dataSession, hD, apply_append, polyUpdate_append]
  rfl

theorem cutLike_cons_append (d : List Byte) (chunks : List (List Byte)) {x : List Byte} (y : List Byte)
    (h : x.length = d.length) : cutLike (d :: chunks) (x ++ y) = x :: cutLike chunks y := by
  rw [cutLike, List.take_left' h, List.drop_left' h]

/-- Data commands over any chunks leave the registers that one over their concatenation leaves, and emit its bytes, cut
as the chunks (R132, R167). -/
theorem DataCommand.execAll_chunks {cmd : List Byte → Instr} {opc : Byte} {st : SessionState}
    {covered : List Byte → StreamCipher → List Byte} (H : DataCommand cmd opc st covered) (chunks : List (List Byte))
    (s : State) (hst : s.st = .initialized ∨ s.st = st) :
    ∃ t, execAll (chunks.map cmd) s = some t ∧ (t.st = .initialized ∨ t.st = st) ∧ (chunks ≠ [] → t.st = st) ∧
      t.session = dataSession (covered chunks.flatten s.session.cipher) chunks.flatten s.session ∧
      responses t = responses s ++
        dataResponses opc st (cutLike chunks (apply chunks.flatten s.session.cipher).1) := by
  induction chunks generalizing s with
  | nil =>
    have hnil : covered [] s.session.cipher = [] := List.eq_nil_of_length_eq_zero (H.length_covered _ _)
    refine ⟨s, rfl, hst, fun h => absurd rfl h, ?_, (List.append_nil _).symm⟩
    rw [List.flatten_nil, hnil, dataSession_nil]
  | cons d chunks ih =>
    obtain ⟨s', hexec, hst', hn', -, hresp'⟩ := H.answers d s hst
    obtain ⟨t, hrest, -, htst, htn, htresp⟩ := ih s' (.inr hst')
    have hcipher : s'.session.cipher = (apply d s.session.cipher).2 := by rw [hn']; rfl
    have hlast : t.st = st := by
      by_cases hnil : chunks = []
      · subst hnil
        cases hrest
        exact hst'
      · exact htst hnil
    refine ⟨t, by rw [List.map_cons, execAll, hexec]; exact hrest, .inr hlast, fun _ => hlast, ?_, ?_⟩
    · rw [htn, hcipher, hn', ← dataSession_append, ← H.covered_append, List.flatten_cons]
    · rw [htresp, hresp', hcipher, List.flatten_cons, apply_append, cutLike_cons_append d chunks _ (length_apply ..),
        dataResponses, List.append_assoc]

/-- Settles O53: both runs leave the registers and emit the bytes of one ENCRYPT of the concatenation. -/
theorem chunkingDoesNotMatter : Obligations.ChunkingDoesNotMatter := by
  intro chunks s t u hne ht hu hst
  obtain ⟨t', ht', -, htst, htn, htresp⟩ := dataCommand_encrypt.execAll_chunks chunks s hst
  obtain ⟨u', hu', hust, hun, -, huresp⟩ := dataCommand_encrypt.answers chunks.flatten s hst
  cases ht.symm.trans ht'
  cases hu.symm.trans hu'
  exact ⟨(htst hne).trans hust.symm, htn.trans hun.symm, _, length_apply _ _, huresp, htresp⟩

end Sys2Proof.Proofs
end

section
/-! The AEAD function of a whole session (42_aead_commands.md section 7). -/

namespace Sys2Proof.Proofs

open Sys2Proof.Machine Sys2Proof.Laws

/-! The first and the last command -/

theorem answers_init {key nonce : List Byte} (aad : List Byte) {s : State} (hkey : key.length = 32)
    (hnonce : nonce.length = 12) (hst : s.st = .uninit ∨ s.st = .finished) :
    Answers (.init 0 (key ++ nonce ++ aad)) s .initialized (initSession key nonce aad s.session)
      (okResponse 0x01 false .initialized []) := by
  have hlen : legalLen .init (key ++ nonce ++ aad).length = true :=
    decide_eq_true (by simp only [List.length_append]; omega)
  have hpermitted : permitted .init s.st = true := decide_eq_true hst
  have h := answers_performed (i := .init 0 (key ++ nonce ++ aad)) (s := s)
    ((check_none_iff _ _ _ _).2 ⟨rfl, hlen, hpermitted, rfl⟩) (by simp)
  rwa [sessionAfter, keyOf_append key nonce aad hkey, nonceOf_append key nonce aad hkey hnonce,
    aadOf_append key nonce aad hkey hnonce] at h

theorem answers_finish {s : State} (hlive : Live s) (hn : LiveSession s.session) :
    Answers (.finish 0 []) s .finished Session.reset
      (okResponse 0x04 false .finished (polyTag (finishAuth s.session))) := by
  obtain ⟨hpn, -⟩ := hn
  have hpermitted : permitted .finish s.st = true := decide_eq_true hlive
  refine answers_performed ((check_none_iff _ _ _ _).2 ⟨rfl, rfl, hpermitted, rfl⟩) fun _ => ?_
  rw [polyFinal, if_pos ((finishAuth_pn_eq_zero_iff _).2 hpn)]
  exact Option.some_ne_none _

/-! The data -/

/-- After INIT the cipher stands at keystream byte 64: block 0 was the one-time key's (R202). -/
theorem standsAt_initSession (key nonce aad : List Byte) (n : Session) :
    StandsAt (initialWords key nonce) 64 (initSession key nonce aad n).cipher := by
  rw [initSession_eq]
  exact ⟨fun _ => ⟨rfl, rfl⟩, fun h => absurd rfl h⟩

theorem apply_initSession (key nonce aad d : List Byte) (n : Session) :
    (apply d (initSession key nonce aad n).cipher).1 = aeadData key nonce d :=
  (standsAt_apply d (standsAt_initSession key nonce aad n)).1

/-! The tag -/

theorem length_taggedMessage (aad ct : List Byte) :
    (taggedMessage aad ct).length = 16 * ((aad.length + 15) / 16 + (ct.length + 15) / 16 + 1) := by
  simp only [taggedMessage, List.length_append, length_zeros, length_toLE]
  omega

/-- The tag of a whole-block message under the registers that POLY_INIT leaves (R160, R163, R222). -/
theorem polyTag_polyInit {k : List Byte} (hk : k.length = 32) (a : AuthAccumulator) {m : List Byte} {n : Nat}
    (hm : m.length = 16 * n) : polyTag (polyUpdate m (polyInit k a)) = poly1305 k m := by
  have hh : (polyUpdate m (polyInit k a)).h % polyP = polyBlocks (polyInit k a).r n m 0 := by
    rw [Nat.mod_eq_of_lt (polyUpdate_lt m _ (by rw [polyInit_h]; decide)), polyUpdate_wholeBlocks_h n m _ rfl hm,
      polyInit_h]
  have hs : (polyInit k a).s.toNat = leNat ((k.drop 16).take 16) := by
    have hlt := leNat_lt ((k.drop 16).take 16)
    have hlen : ((k.drop 16).take 16).length = 16 := by rw [List.length_take, List.length_drop]; omega
    rw [hlen] at hlt
    exact (BitVec.toNat_ofNat _ _).trans (Nat.mod_eq_of_lt hlt)
  have hblocks : m.length / 16 = n := by omega
  rw [polyTag, hh, polyUpdate_s, hs, poly1305, hblocks]
  rfl

/-- The message FINISH has absorbed (R203, R211). -/
theorem finishAuth_eq (key nonce aad x d : List Byte) (n : Session) (hx : x.length = d.length) :
    finishAuth (dataSession x d (initSession key nonce aad n)) =
      polyUpdate (taggedMessage aad x) (polyInit (oneTimeKey key nonce) n.auth) := by
  have hD : (addDataLength d.length (initSession key nonce aad n)).toNat = x.length % 2 ^ 64 := by
    rw [addDataLength_eq, initSession_eq, BitVec.toNat_ofNat, hx]
    exact congrArg (· % 2 ^ 64) (Nat.zero_add _)
  have hA : toLE 8 (BitVec.ofNat 64 aad.length).toNat = toLE 8 aad.length := toLE_mod 8 aad.length
  have hpad : (16 - x.length % 2 ^ 64 % 16) % 16 = (16 - x.length % 16) % 16 := by omega
  unfold finishAuth
  simp only [dataSession, lengthBlock, hD]
  rw [initSession_eq]
  simp only [hA, pad16, hpad, taggedMessage, ← polyUpdate_append, List.append_assoc]

theorem polyTag_session (key nonce aad x d : List Byte) (n : Session) (hx : x.length = d.length) :
    polyTag (finishAuth (dataSession x d (initSession key nonce aad n))) = aeadTag key nonce aad x := by
  rw [finishAuth_eq key nonce aad x d n hx]
  exact polyTag_polyInit (length_oneTimeKey key nonce) _ (length_taggedMessage aad x)

/-! The whole session -/

/-- INIT, data commands over any chunks, and FINISH (R222): the tag covers the bytes that the data commands
authenticate. -/
theorem DataCommand.session {cmd : List Byte → Instr} {opc : Byte} {st : SessionState}
    {covered : List Byte → StreamCipher → List Byte} (H : DataCommand cmd opc st covered) {key nonce : List Byte}
    (aad : List Byte) (chunks : List (List Byte)) {s : State} (hkey : key.length = 32) (hnonce : nonce.length = 12)
    (hst : s.st = .uninit ∨ s.st = .finished) :
    ∃ t, execAll (.init 0 (key ++ nonce ++ aad) :: chunks.map cmd ++ [.finish 0 []]) s = some t ∧
      t.st = .finished ∧ t.session = Session.reset ∧
      responses t = responses s ++ okResponse 0x01 false .initialized [] ++
        dataResponses opc st (cutLike chunks (aeadData key nonce chunks.flatten)) ++
        okResponse 0x04 false .finished
          (aeadTag key nonce aad (covered chunks.flatten (initSession key nonce aad s.session).cipher)) := by
  obtain ⟨s1, hinit, hst1, hn1, -, hresp1⟩ := answers_init aad hkey hnonce hst
  obtain ⟨s2, hdata, hst2, -, hn2, hresp2⟩ := H.execAll_chunks chunks s1 (.inl hst1)
  rw [hn1] at hn2 hresp2
  have hlive : Live s2 := by
    obtain ⟨h1, h2⟩ := H.st_live
    rcases hst2 with h | h <;> rw [Live, h]
    · decide
    · exact ⟨h1, h2⟩
  have hsession : LiveSession s2.session := by
    rw [hn2]
    exact liveSession_dataSession (liveSession_initSession _ _ _ _) (H.length_covered _ _)
  obtain ⟨t, hfinish, hst3, hn3, -, hresp3⟩ := answers_finish hlive hsession
  refine ⟨t, ?_, hst3, hn3, ?_⟩
  · rw [List.cons_append, execAll, hinit]
    simp only [execAll_append, hdata, Option.bind_some, execAll, hfinish]
  · rw [hresp3, hresp2, hresp1, apply_initSession, hn2,
      polyTag_session key nonce aad _ _ _ (H.length_covered _ _)]

/-- Settles O54: ENCRYPT authenticates what it emits. -/
theorem sealSession : Obligations.SealSession := by
  intro key nonce aad chunks s hkey hnonce hst
  have h := dataCommand_encrypt.session aad chunks hkey hnonce hst
  rwa [encrypted, apply_initSession] at h

/-- Settles O55: DECRYPT authenticates its payload. -/
theorem openSession : Obligations.OpenSession := by
  intro key nonce aad chunks s hkey hnonce hst
  exact dataCommand_decrypt.session aad chunks hkey hnonce hst

/-! Round trip -/

theorem length_aeadData (key nonce d : List Byte) : (aeadData key nonce d).length = d.length :=
  length_xorKeystream _ _ d

theorem aeadData_twice (key nonce d : List Byte) : aeadData key nonce (aeadData key nonce d) = d :=
  xorKeystream_twice _ _ d

/-- One data command's response is all of the session's data. -/
theorem dataResponses_single (opc : Byte) (st : SessionState) {d x : List Byte} (h : x.length = d.length) :
    dataResponses opc st (cutLike [d] x) = okResponse opc false st x := by
  rw [cutLike, cutLike, List.take_of_length_le h.le, dataResponses, dataResponses, List.append_nil]

/-- Settles O56: the ciphertext is the plaintext XOR the keystream, so the second session emits the plaintext, and both
tags cover the ciphertext. -/
theorem roundTrip : Obligations.RoundTrip := by
  intro key nonce aad pt s hkey hnonce hst
  obtain ⟨t1, hrun1, -, -, hresp1⟩ := sealSession key nonce aad [pt] s hkey hnonce hst
  obtain ⟨t2, hrun2, -, -, hresp2⟩ := openSession key nonce aad [aeadData key nonce pt] s hkey hnonce hst
  simp only [List.flatten_singleton, aeadData_twice] at hresp1 hresp2
  rw [dataResponses_single _ _ (length_aeadData key nonce pt)] at hresp1
  rw [dataResponses_single _ _ (length_aeadData key nonce pt).symm] at hresp2
  exact ⟨aeadData key nonce pt, _, t1, t2, length_aeadData key nonce pt, hrun1, hresp1, hrun2, hresp2⟩

end Sys2Proof.Proofs
end

section
/-! Several cores in one system (00_scope.md section 7, 60_exceptions.md section 3). -/

namespace Sys2Proof.Proofs

open Sys2Proof.Machine Sys2Proof.Laws

/-- What a step of core `k` does to the system. -/
theorem stepAt_eq_some_iff (k : Nat) (y z : System) : y.stepAt k = some z ↔
    ∃ s s', y.instances[k]? = some s ∧ step s = .next s' ∧ z = { instances := y.instances.set k s' } := by
  unfold System.stepAt
  cases hk : y.instances[k]? with
  | none => simp
  | some s =>
    cases hs : step s with
    | next s' => simp [hs, eq_comm]
    | fault f => simp [hs]
    | refused r => simp [hs]

/-- Settles O57: a step reads and writes its own place in the list. -/
theorem instancesAreIndependent : Obligations.InstancesAreIndependent := by
  intro j k y z hjk h
  obtain ⟨s, s', hk, hs, rfl⟩ := (stepAt_eq_some_iff k y z).1 h
  refine ⟨List.getElem?_set_ne hjk.symm, List.length_set, fun x hx => ?_, fun w hw => ?_⟩
  · rw [hk] at hx
    refine ⟨_, (stepAt_eq_some_iff k x _).2 ⟨s, s', hx, hs, rfl⟩, ?_⟩
    obtain ⟨hyk, -⟩ := List.getElem?_eq_some_iff.1 hk
    obtain ⟨hxk, -⟩ := List.getElem?_eq_some_iff.1 hx
    rw [List.getElem?_set_self hxk, List.getElem?_set_self hyk]
  · obtain ⟨r, r', hj, hr, rfl⟩ := (stepAt_eq_some_iff j y w).1 hw
    refine ⟨_, (stepAt_eq_some_iff j _ _).2 ⟨r, r', ?_, hr, rfl⟩, (stepAt_eq_some_iff k _ _).2 ⟨s, s', ?_, hs, ?_⟩⟩
    · rw [List.getElem?_set_ne hjk.symm, hj]
    · rw [List.getElem?_set_ne hjk, hk]
    · rw [List.set_comm _ _ hjk]

end Sys2Proof.Proofs
end

section
/-! The assembler and the disassembler (30_encoding.md section 5). -/

namespace Sys2Proof.Proofs

open Sys2Proof.Machine Sys2Proof.Laws

/-- Operands that LEN can say assemble to the command's frame. -/
theorem asmFrame_eq_encode {i : Instr} (hrsvd : i.rsvd = 0) (h : i.payload.length < 2 ^ 64) :
    asmFrame i.opc i.payload = some (encode i) := by
  rw [asmFrame, if_pos h, encode, hrsvd]

/-- Settles O58: each mnemonic is the frame of its operand bytes. -/
theorem mnemonicsAssembleToTheirFrame : Obligations.MnemonicsAssembleToTheirFrame := by
  intro key nonce aad data t1 t2 hkey hnonce h1 h2 haad hdata
  have hinit : (key ++ nonce ++ aad).length < 2 ^ 64 := by simp only [List.length_append]; omega
  have htags : (t1 ++ t2).length < 2 ^ 64 := by simp only [List.length_append]; omega
  refine ⟨?_, asmFrame_eq_encode (i := .encrypt 0 data) rfl hdata, asmFrame_eq_encode (i := .decrypt 0 data) rfl hdata,
    by decide, ?_, by decide⟩
  · rw [assemble, if_pos ⟨hkey, hnonce⟩]
    exact asmFrame_eq_encode (i := .init 0 (key ++ nonce ++ aad)) rfl hinit
  · rw [assemble, if_pos ⟨h1, h2⟩]
    exact asmFrame_eq_encode (i := .tagcmp 0 (t1 ++ t2)) rfl htags

/-! Disassembling and assembling again -/

/-- A mnemonic's line assembles to its command (R98). -/
theorem assemble_lineOfInstr {i : Instr} (hwf : i.wellFormed = true) (hrsvd : i.rsvd = 0)
    (hlen : legalLen (commandOf i) i.payload.length = true) : assemble (lineOfInstr i) = some (encode i) := by
  have hframe := asmFrame_eq_encode hrsvd ((wellFormed_iff i).1 hwf)
  cases i with
  | init r p =>
    have h44 : 44 ≤ p.length := of_decide_eq_true hlen
    have hkey : (keyOf p).length = 32 := by simp only [keyOf, slice, List.length_take, List.length_drop]; omega
    have hnonce : (nonceOf p).length = 12 := by simp only [nonceOf, slice, List.length_take, List.length_drop]; omega
    rw [lineOfInstr, assemble, if_pos ⟨hkey, hnonce⟩, init_operands]
    exact hframe
  | encrypt r p | decrypt r p => exact hframe
  | finish r p | abort r p =>
    obtain rfl : p = [] := List.eq_nil_of_length_eq_zero (of_decide_eq_true hlen)
    exact hframe
  | tagcmp r p =>
    have h32 : p.length = 32 := of_decide_eq_true hlen
    have h1 : (tag1Of p).length = 16 := by simp only [tag1Of, slice, List.length_take, List.length_drop]; omega
    have h2 : (tag2Of p).length = 16 := by simp only [tag2Of, slice, List.length_take, List.length_drop]; omega
    rw [lineOfInstr, assemble, if_pos ⟨h1, h2⟩, tagcmp_operands p h32]
    exact hframe

/-- A `.frame` line assembles to the frame it was printed from, the lanes after LEN being 0 (R98). -/
theorem assemble_frameLine {i : Instr} (hwf : i.wellFormed = true) :
    assemble (frameLine (frameOf i)) = some (encode i) := by
  have hlen := (wellFormed_iff i).1 hwf
  have hopc : opcField (frameOf i).hw0 = i.opc := opcField_hw0Of i.opc i.rsvd
  have hrsvd : rsvdField (frameOf i).hw0 = i.rsvd := rsvdField_hw0Of i.opc i.rsvd
  have hfits : i.payload.length ≤ 4 * wordCount i.payload.length := by rw [wordCount]; omega
  rw [frameLine, hopc, hrsvd, frameOf_len hwf, frameOf_payload hwf, assemble,
    if_pos ⟨i.opc.isLt, i.rsvd.isLt, hlen, hfits⟩, packWords_zeros, BitVec.ofNat_toNat, BitVec.ofNat_toNat,
    BitVec.setWidth_eq, BitVec.setWidth_eq]
  rfl

theorem assemble_lineOfFrame {i : Instr} (hwf : i.wellFormed = true) :
    assemble (lineOfFrame (frameOf i)) = some (encode i) := by
  simp only [lineOfFrame, decodeFrame_frameOf hwf]
  split_ifs with h
  · exact assemble_lineOfInstr hwf h.1 h.2
  · exact assemble_frameLine hwf

theorem disassembleFrames_of_splitFrame {n : Nat} {ws rest : List Word} {f : Frame}
    (h : splitFrame ws = some (f, rest)) :
    disassembleFrames (n + 1) ws = lineOfFrame f :: disassembleFrames n rest := by
  cases ws with
  | nil => simp [splitFrame] at h
  | cons w ws => rw [disassembleFrames, h]

/-- An encoded stream disassembles to one line a command, given at least as many frames as it has words. -/
theorem disassembleFrames_encode {is : List Instr} (hwf : ∀ i ∈ is, i.wellFormed = true) {n : Nat}
    (hn : (is.flatMap encode).length ≤ n) :
    disassembleFrames n (is.flatMap encode) = is.map fun i => lineOfFrame (frameOf i) := by
  induction is generalizing n with
  | nil => rw [List.flatMap_nil, disassembleFrames, List.map_nil]
  | cons i is ih =>
    obtain ⟨hi, his⟩ := List.forall_mem_cons.1 hwf
    have hpos : 0 < (encode i).length := Nat.succ_pos _
    rw [List.flatMap_cons, List.length_append] at hn
    obtain ⟨m, rfl⟩ : ∃ m, n = m + 1 := ⟨n - 1, by omega⟩
    rw [List.flatMap_cons, disassembleFrames_of_splitFrame (splitFrame_encode_append hi _), ih his (by omega),
      List.map_cons]

theorem assembleAll_lines {is : List Instr} (hwf : ∀ i ∈ is, i.wellFormed = true) :
    assembleAll (is.map fun i => lineOfFrame (frameOf i)) = some (is.flatMap encode) := by
  induction is with
  | nil => rfl
  | cons i is ih =>
    obtain ⟨hi, his⟩ := List.forall_mem_cons.1 hwf
    simp only [List.map_cons, assembleAll, assemble_lineOfFrame hi, ih his, List.flatMap_cons]

/-- Settles O59: each command prints as one line, its mnemonic or `.frame`, and either assembles to its words. -/
theorem disassemblyReassembles : Obligations.DisassemblyReassembles := by
  intro is hwf
  rw [disassemble, disassembleFrames_encode hwf le_rfl, assembleAll_lines hwf]

end Sys2Proof.Proofs
end
